-- ==== Sys2Proof/Word.lean ====
section
/-! DEFINITION. The word types of the core: the widths of 00_scope.md rule R6, 10_state.md rules R10 and R11,
and 30_encoding.md rules R60 to R68. -/

namespace Sys2Proof

/-- A 32-bit register, accumulator, register-space word number or data word (R6, R60). -/
abbrev Word := BitVec 32

/-- An 8-bit element of `QPHOTO` (R23). -/
abbrev Byte := BitVec 8

/-- A 16-bit 5:6:5 source pixel (R65). -/
abbrev Pixel := BitVec 16

/-- One host transaction `T`, 65 bits (R60). -/
abbrev Txn := BitVec 65

/-- A 12-bit Level-4 key (R66). -/
abbrev CoarseKey := BitVec 12

/-- A 6-bit Level-2 key (R67). -/
abbrev FineKey := BitVec 6

/-- One 6-bit colour channel (R68, R72). -/
abbrev Channel := BitVec 6

end Sys2Proof
end

