-- ==== Sys2Proof/Syntax.lean ====
section
/-! DEFINITION. The 18 host transactions of spec/opcode_table.json, one constructor a row (30_encoding.md rules R61
to R64). -/

namespace Sys2Proof

/-- The field of a bucket entry that a debug read selects, `f` of rules R42 and R69. -/
inductive BucketField where
  | sumR
  | sumG
  | sumB
  | count
deriving DecidableEq, Repr

/-- A transaction that matches a row of the opcode table. Operands have the widths of rules R63 and R64; ignored bits
are no operand (R78). -/
inductive Instr where
  /-- Write 0 to `CMD` (R91). -/
  | nop
  /-- Write 1 to `CMD` (R92 to R94). -/
  | start
  /-- Write 2 to `CMD` (R120 to R122). -/
  | rank
  /-- Write 3 to `CMD` (R130, R131). -/
  | refine
  /-- Write 4 to `CMD` (R140 to R142). -/
  | build
  /-- Write 5 to `CMD` (R150 to R153). -/
  | encode
  /-- Write 6 to `CMD` (R95). -/
  | abort
  /-- Write to `PIXEL_IN`: the source pixel `px` (R110 to R112). -/
  | push (px : Pixel)
  /-- Write to `WIDTH` (R96). -/
  | setw (v : Word)
  /-- Write to `HEIGHT` (R97). -/
  | seth (v : Word)
  /-- Write to `ERR`: clear the flags whose bit of `m` is 1 (R98). -/
  | clrerr (m : BitVec 4)
  /-- Read of control register `a` (R160). -/
  | rdreg (a : BitVec 4)
  /-- Read of palette entry `s` (R161). -/
  | rdpal (s : BitVec 8)
  /-- Read of `DED_KEY[s]` (R166). -/
  | rdded (s : BitVec 7)
  /-- Read of field `f` of `L2[j]` (R164). -/
  | rdl2 (j : FineKey) (f : BucketField)
  /-- Read of `SLOT_MAP[k]` (R165). -/
  | rdslot (k : CoarseKey)
  /-- Read of field `f` of `L4[k]` (R163). -/
  | rdl4 (k : CoarseKey) (f : BucketField)
  /-- Read of photo byte `i` (R162). -/
  | rdphoto (i : BitVec 24)
deriving DecidableEq, Repr

/-- The instruction is a read (R64). -/
def Instr.isRead : Instr → Bool
  | .nop => false
  | .start => false
  | .rank => false
  | .refine => false
  | .build => false
  | .encode => false
  | .abort => false
  | .push _ => false
  | .setw _ => false
  | .seth _ => false
  | .clrerr _ => false
  | .rdreg _ => true
  | .rdpal _ => true
  | .rdded _ => true
  | .rdl2 _ _ => true
  | .rdslot _ => true
  | .rdl4 _ _ => true
  | .rdphoto _ => true

/-- Why a transaction word matches no row of the opcode table: the rows of rule R77. -/
inductive Reject where
  /-- A write to `CMD` with `wdata[31:4] != 0` or `op` in `0x7` to `0xF`. -/
  | illegalCommand
  /-- A write to a read-only or unmapped address. -/
  | writeNotMapped
  /-- A read of an address that no window of rule R64 holds. -/
  | readNotMapped
deriving DecidableEq, Repr

end Sys2Proof
end

