-- ==== Sys2Proof/WellFormed.lean ====
section
/-! DEFINITION. Which transactions name a mapped location (20_memory.md rule R42). The widths of operands are in their
types; what is left to check are the two windows whose last numbers are unmapped. A transaction that is not well
formed still has its meaning: it raises `Err(ADDR)` (46_readout.md rule R167, log entry 16). -/

namespace Sys2Proof

/-- Register numbers `0xB` to `0xF` are unmapped (R64, R160). -/
abbrev registerMapped (a : BitVec 4) : Bool := a.toNat < 11

/-- Palette slots 192 to 255 do not exist (R42, R161). -/
abbrev paletteMapped (s : BitVec 8) : Bool := s.toNat < 192

/-- The transaction names a mapped location. -/
def Instr.wellFormed : Instr → Bool
  | .nop => true
  | .start => true
  | .rank => true
  | .refine => true
  | .build => true
  | .encode => true
  | .abort => true
  | .push _ => true
  | .setw _ => true
  | .seth _ => true
  | .clrerr _ => true
  | .rdreg a => registerMapped a
  | .rdpal s => paletteMapped s
  | .rdded _ => true
  | .rdl2 _ _ => true
  | .rdslot _ => true
  | .rdl4 _ _ => true
  | .rdphoto _ => true

end Sys2Proof
end

