-- ==== Sys2Proof/Decode.lean ====
section
/-! DEFINITION. The 65-bit transaction word, its decoder, total and rejecting by name, and its encoder (30_encoding.md
rules R60 to R64 and R77; spec/opcode_table.json). -/

namespace Sys2Proof

/-- `T[64]`: 1 write, 0 read (R60). -/
def txnIsWrite (t : Txn) : Bool := t.extractLsb' 64 1 == 1#1

/-- `T[63:32]`: the register-space word number (R60). -/
def txnAddr (t : Txn) : Word := t.extractLsb' 32 32

/-- `T[31:0]`: the data of a write (R60). -/
def txnData (t : Txn) : Word := t.extractLsb' 0 32

/-- The word `T = {rw, addr, wdata}` of a transaction (R60). -/
def makeTxn (write : Bool) (addr data : Word) : Txn := BitVec.ofBool write ++ addr ++ data

/-- The field number `f` as a field (R42, R69). -/
def fieldOfCode (c : BitVec 2) : BucketField :=
  match c.toNat with
  | 0 => .sumR
  | 1 => .sumG
  | 2 => .sumB
  | _ => .count

/-- A field as its number `f` (R42, R69). -/
def fieldCode : BucketField → BitVec 2
  | .sumR => 0
  | .sumG => 1
  | .sumB => 2
  | .count => 3

/-- A write to `CMD` (R61, R62; R90 step 1). -/
def decodeCommand (data : Word) : Except Reject Instr :=
  if data.extractLsb' 4 28 = 0#28 then
    match (data.extractLsb' 0 4).toNat with
    | 0 => .ok .nop
    | 1 => .ok .start
    | 2 => .ok .rank
    | 3 => .ok .refine
    | 4 => .ok .build
    | 5 => .ok .encode
    | 6 => .ok .abort
    | _ => .error .illegalCommand
  else .error .illegalCommand

/-- A write, by address (R63; every other address is read-only or unmapped, R77). -/
def decodeWrite (addr data : Word) : Except Reject Instr :=
  match addr.toNat with
  | 0 => decodeCommand data
  | 2 => .ok (.clrerr (data.extractLsb' 0 4))
  | 3 => .ok (.setw data)
  | 4 => .ok (.seth data)
  | 5 => .ok (.push (data.extractLsb' 0 16))
  | _ => .error .writeNotMapped

/-- A read, by window (R64). -/
def decodeRead (addr : Word) : Except Reject Instr :=
  if addr.extractLsb' 4 28 = 0#28 then .ok (.rdreg (addr.extractLsb' 0 4))
  else if addr.extractLsb' 8 24 = 1#24 then .ok (.rdpal (addr.extractLsb' 0 8))
  else if addr.extractLsb' 7 25 = 4#25 then .ok (.rdded (addr.extractLsb' 0 7))
  else if addr.extractLsb' 8 24 = 3#24 then
    .ok (.rdl2 (addr.extractLsb' 2 6) (fieldOfCode (addr.extractLsb' 0 2)))
  else if addr.extractLsb' 12 20 = 1#20 then .ok (.rdslot (addr.extractLsb' 0 12))
  else if addr.extractLsb' 14 18 = 1#18 then
    .ok (.rdl4 (addr.extractLsb' 2 12) (fieldOfCode (addr.extractLsb' 0 2)))
  else if addr.extractLsb' 24 8 = 1#8 then .ok (.rdphoto (addr.extractLsb' 0 24))
  else .error .readNotMapped

/-- The instruction a transaction word stands for, or the row of rule R77 that it falls under: by `rw`, then by
`addr`, and for a write to `CMD` by `wdata` (R60). -/
def decode (t : Txn) : Except Reject Instr :=
  if txnIsWrite t then decodeWrite (txnAddr t) (txnData t) else decodeRead (txnAddr t)

/-- A command as a write to `CMD` (R61). -/
def commandTxn (op : BitVec 4) : Txn := makeTxn true 0#32 (0#28 ++ op)

/-- A read of a word number; the data of a read is taken as 0 (R60). -/
def readTxn (addr : Word) : Txn := makeTxn false addr 0#32

/-- The transaction word of an instruction, ignored bits 0 (R61 to R64). -/
def encode : Instr → Txn
  | .nop => commandTxn 0
  | .start => commandTxn 1
  | .rank => commandTxn 2
  | .refine => commandTxn 3
  | .build => commandTxn 4
  | .encode => commandTxn 5
  | .abort => commandTxn 6
  | .push px => makeTxn true 5#32 (0#16 ++ px)
  | .setw v => makeTxn true 3#32 v
  | .seth v => makeTxn true 4#32 v
  | .clrerr m => makeTxn true 2#32 (0#28 ++ m)
  | .rdreg a => readTxn (0#28 ++ a)
  | .rdpal s => readTxn (1#24 ++ s)
  | .rdded s => readTxn (4#25 ++ s)
  | .rdl2 j f => readTxn (3#24 ++ j ++ fieldCode f)
  | .rdslot k => readTxn (1#20 ++ k)
  | .rdl4 k f => readTxn (1#18 ++ k ++ fieldCode f)
  | .rdphoto i => readTxn (1#8 ++ i)

/-- The `match` of an instruction's row of spec/opcode_table.json, over the 65 bits of `T` (R60). -/
def rowMatch : Instr → Txn
  | .nop => 0x10000000000000000#65
  | .start => 0x10000000000000001#65
  | .rank => 0x10000000000000002#65
  | .refine => 0x10000000000000003#65
  | .build => 0x10000000000000004#65
  | .encode => 0x10000000000000005#65
  | .abort => 0x10000000000000006#65
  | .push _ => 0x10000000500000000#65
  | .setw _ => 0x10000000300000000#65
  | .seth _ => 0x10000000400000000#65
  | .clrerr _ => 0x10000000200000000#65
  | .rdreg _ => 0x00000000000000000#65
  | .rdpal _ => 0x00000010000000000#65
  | .rdded _ => 0x00000020000000000#65
  | .rdl2 _ _ => 0x00000030000000000#65
  | .rdslot _ => 0x00000100000000000#65
  | .rdl4 _ _ => 0x00000400000000000#65
  | .rdphoto _ => 0x00100000000000000#65

/-- The `mask` of an instruction's row of spec/opcode_table.json, over the 65 bits of `T` (R60). -/
def rowMask : Instr → Txn
  | .nop => 0x1ffffffffffffffff#65
  | .start => 0x1ffffffffffffffff#65
  | .rank => 0x1ffffffffffffffff#65
  | .refine => 0x1ffffffffffffffff#65
  | .build => 0x1ffffffffffffffff#65
  | .encode => 0x1ffffffffffffffff#65
  | .abort => 0x1ffffffffffffffff#65
  | .push _ => 0x1ffffffff00000000#65
  | .setw _ => 0x1ffffffff00000000#65
  | .seth _ => 0x1ffffffff00000000#65
  | .clrerr _ => 0x1ffffffff00000000#65
  | .rdreg _ => 0x1fffffff000000000#65
  | .rdpal _ => 0x1ffffff0000000000#65
  | .rdded _ => 0x1ffffff8000000000#65
  | .rdl2 _ _ => 0x1ffffff0000000000#65
  | .rdslot _ => 0x1fffff00000000000#65
  | .rdl4 _ _ => 0x1ffffc00000000000#65
  | .rdphoto _ => 0x1ff00000000000000#65

/-- The bits of a transaction word that its row fixes or an operand holds. The rest is ignored: `wdata[31:16]` of
`PUSH`, `wdata[31:4]` of `CLRERR`, and the data of a read (R63, R78). -/
def significantMask : Instr → Txn
  | .nop => 0x1ffffffffffffffff#65
  | .start => 0x1ffffffffffffffff#65
  | .rank => 0x1ffffffffffffffff#65
  | .refine => 0x1ffffffffffffffff#65
  | .build => 0x1ffffffffffffffff#65
  | .encode => 0x1ffffffffffffffff#65
  | .abort => 0x1ffffffffffffffff#65
  | .push _ => 0x1ffffffff0000ffff#65
  | .setw _ => 0x1ffffffffffffffff#65
  | .seth _ => 0x1ffffffffffffffff#65
  | .clrerr _ => 0x1ffffffff0000000f#65
  | .rdreg _ => 0x1ffffffff00000000#65
  | .rdpal _ => 0x1ffffffff00000000#65
  | .rdded _ => 0x1ffffffff00000000#65
  | .rdl2 _ _ => 0x1ffffffff00000000#65
  | .rdslot _ => 0x1ffffffff00000000#65
  | .rdl4 _ _ => 0x1ffffffff00000000#65
  | .rdphoto _ => 0x1ffffffff00000000#65

/-- A word numbered as spec/opcode_table.json numbers it, as a transaction: its low 65 bits; bits above `nbits` are 0,
and a transaction has no bits above 64 (log entry 12). -/
def tableTxn (nbits w : Nat) : Txn := BitVec.ofNat 65 (w % 2 ^ nbits)

/-- What the decoder reads from a table word. -/
def decodeTableWord (nbits w : Nat) : Option Instr :=
  match decode (tableTxn nbits w) with
  | .ok i => some i
  | .error _ => none

end Sys2Proof
end

