-- ==== Sys2Proof/Config.lean ====
section
/-! DEFINITION. The fixed constants of 00_scope.md rule R5 and the two implementation parameters of rule R4. -/

namespace Sys2Proof.Config

/-- `N_L4`, the number of Level-4 buckets (R5). -/
abbrev numL4 : Nat := 4096

/-- `N_L2`, the number of Level-2 buckets (R5). -/
abbrev numL2 : Nat := 64

/-- `N_DED`, the number of dedicated buckets and dedicated palette slots (R5). -/
abbrev numDed : Nat := 128

/-- `N_PAL`, the number of palette entries (R5). -/
abbrev numPal : Nat := 192

/-- `PAL_OFFSET`, the global palette index of palette entry 0 (R5). -/
abbrev palOffset : Nat := 64

/-- `SHARED_BASE`, the palette slot of Level-2 bucket 0 (R5). -/
abbrev sharedBase : Nat := 128

/-- The two implementation parameters of an instance, `MAX_W` and `MAX_H` (R4). -/
structure Limits where
  maxW : Nat
  maxH : Nat
deriving DecidableEq, Repr

/-- `MAX_N`, the capacity of the pixel cache and of the photo RAM (R4). -/
def Limits.maxN (l : Limits) : Nat := l.maxW * l.maxH

/-- The constraints that rule R4 puts on the parameters. -/
abbrev Limits.legal (l : Limits) : Prop :=
  (1 ≤ l.maxW ∧ l.maxW ≤ 65535) ∧ (1 ≤ l.maxH ∧ l.maxH ≤ 65535) ∧ l.maxN ≤ 16777216

/-- The width setting of the instance, any number: R4 leaves `MAX_W` open (log entry 1). -/
opaque widthSetting : Nat

/-- The height setting of the instance, any number: R4 leaves `MAX_H` open (log entry 1). -/
opaque heightSetting : Nat

/-- The nearest legal parameters to a pair of settings: a legal pair stands for itself, so every legal instance is
one of these (log entry 1). -/
def nearestLegal (w h : Nat) : Limits :=
  let mw := min (max w 1) 65535
  { maxW := mw, maxH := min (max h 1) (min 65535 (16777216 / mw)) }

/-- The parameters of this instance: legal, and otherwise unknown (R4, R26, log entry 1). -/
def limits : Limits := nearestLegal widthSetting heightSetting

end Sys2Proof.Config
end

