-- ==== Sys2Proof/Machine/State.lean ====
section
/-! DEFINITION. The state of the core as plain data (10_state.md rules R11 to R23), its value after reset (rules R25
and R201), and the reasons a step can stop. -/

namespace Sys2Proof.Machine

/-- The sequencer position `PHASE` (R12). Code 7 is never held and has no constructor (log entry 14). -/
inductive Phase where
  | idle
  | fill
  | filled
  | ranked
  | refined
  | built
  | done
deriving DecidableEq, Repr

/-- A ColorBucket: three sums and a count, 32 bits each (R17). -/
structure Bucket where
  sumR : Word
  sumG : Word
  sumB : Word
  count : Word
deriving DecidableEq, Repr

/-- The entry that `START` writes into `L4` and `L2` (R94). -/
abbrev Bucket.zero : Bucket := ⟨0, 0, 0, 0⟩

/-- A `SLOT_MAP` entry (R20, R70). -/
structure SlotEntry where
  sel : Bool
  slot : BitVec 7
deriving DecidableEq, Repr

/-- The entry of a bucket that is not dedicated (R20). -/
abbrev SlotEntry.zero : SlotEntry := ⟨false, 0⟩

/-- A palette entry, three 6-bit channels (R21, R72). -/
structure Colour where
  r : Channel
  g : Channel
  b : Channel
deriving DecidableEq, Repr

/-- The default zero colour (R21). -/
abbrev Colour.zero : Colour := ⟨0, 0, 0⟩

/-- What the host can do to the core: issue one transaction (R40, R60), or pulse the reset input (R200). -/
inductive HostInput where
  | transaction (t : Txn)
  | reset
deriving DecidableEq, Repr

/-- A table or RAM: index and value pairs, indices strictly rising, no value equal to what an unlisted index reads as
(log entry 5). `Table Byte` is a list of `Host.Cell`. -/
abbrev Table (α : Type) := List (Nat × α)

/-- The complete state (R11), and two fields of the model's own: `hostIn`, what the host is about to do (log entry 2),
and `rdata`, what the transaction taken last returned (log entry 3). -/
structure State where
  /-- `PHASE` (R12). -/
  phase : Phase
  /-- `ERR`, bit 0 `SIZE`, 1 `SEQ`, 2 `ILLCMD`, 3 `ADDR` (R16, R75). -/
  err : BitVec 4
  /-- `WIDTH` (R14). -/
  width : Word
  /-- `HEIGHT` (R14). -/
  height : Word
  /-- `RUN_W` (R15). -/
  runW : Word
  /-- `RUN_H` (R15). -/
  runH : Word
  /-- `NPIX` (R13). -/
  npix : Word
  /-- `PIX_IDX` (R13). -/
  pixIdx : Word
  /-- `L4`, 4096 buckets (R17). -/
  l4 : Table Bucket
  /-- `L2`, 64 buckets (R18). -/
  l2 : Table Bucket
  /-- `DED_KEY`, 128 keys (R19). -/
  dedKey : Table CoarseKey
  /-- `SLOT_MAP`, 4096 entries (R20). -/
  slotMap : Table SlotEntry
  /-- `PALETTE`, 192 entries (R21). -/
  palette : Table Colour
  /-- `PIXCACHE`, `MAX_N` elements (R22). -/
  pixCache : Table Pixel
  /-- `QPHOTO`, `MAX_N` elements (R23). -/
  qPhoto : List Host.Cell
  /-- The host's inputs not yet admitted, oldest first (R40, R48). -/
  hostIn : List HostInput
  /-- The data the last transaction returned; none for a write (R60). -/
  rdata : Option Word
deriving DecidableEq, Repr

/-- Why the core stops. The spec's own errors are no stops: they set a flag of `ERR` and go on (R184). -/
inductive Fault where
  /-- Raised by `PUSH`, `REFINE` and `ENCODE` on an access to `PIXCACHE` at or above `MAX_N`, which does not exist
  (R41). Safe: no state that meets `Inv` reaches it (log entry 7). -/
  | pixCacheAbsent
  /-- Raised by `ENCODE` and `RDPHOTO` on an access to `QPHOTO` at or above `MAX_N`, which does not exist (R41). Safe:
  no state that meets `Inv` reaches it (log entry 7). -/
  | photoAbsent
  /-- Raised by `ENCODE` where R47 does not define `photo_addr`. Safe: no state that meets `Inv` reaches it (log
  entry 8). -/
  | photoAddressUndefined
deriving DecidableEq, Repr

/-- Why an instruction has no meaning. -/
inductive Refusal where
  /-- Raised by an arm of `exec` that has no meaning yet; no arm of this model raises it. Safe. -/
  | notModelled (mnemonic : String)
deriving DecidableEq, Repr

/-- The state right after reset (R25, R201). The tables and RAMs, which R201 leaves unspecified, are all zero, as R25
permits (log entry 4); the host has issued nothing (log entries 2 and 3). -/
def State.reset : State where
  phase := .idle
  err := 0
  width := 0
  height := 0
  runW := 0
  runH := 0
  npix := 0
  pixIdx := 0
  l4 := []
  l2 := []
  dedKey := []
  slotMap := []
  palette := []
  pixCache := []
  qPhoto := []
  hostIn := []
  rdata := none

end Sys2Proof.Machine
end

