-- ==== Sys2Proof/Machine/Flags.lean ====
section
/-! DEFINITION. The four sticky error flags and the two computed views of the control registers (10_state.md rule R16,
30_encoding.md rules R74 to R76). -/

namespace Sys2Proof.Machine

/-- The errors the core can raise (R180). -/
inductive ErrFlag where
  | size
  | seq
  | illCmd
  | addr
deriving DecidableEq, Repr

/-- The code of an error: its bit number in `ERR` (R75, R180). -/
def errBit : ErrFlag → Nat
  | .size => 0
  | .seq => 1
  | .illCmd => 2
  | .addr => 3

/-- `ERR` with one flag set (R184). -/
def setFlag (f : ErrFlag) (e : BitVec 4) : BitVec 4 := e ||| (1#4 <<< errBit f)

/-- `ERR` with the flags of a mask cleared: `ERR and (not m)` (R98). -/
def clearFlags (m e : BitVec 4) : BitVec 4 := e &&& ~~~m

/-- The 3-bit code of a phase (R12). -/
def phaseCode : Phase → BitVec 3
  | .idle => 0
  | .fill => 1
  | .filled => 2
  | .ranked => 3
  | .refined => 4
  | .built => 5
  | .done => 6

/-- `VALID`: 1 exactly in `DONE` (R16). -/
def validFlag (p : Phase) : Bool := p = .done

/-- The read-only view `STATUS` (R74). -/
def statusWord (p : Phase) : Word := 0#28 ++ BitVec.ofBool (validFlag p) ++ phaseCode p

/-- The read of `ERR` (R75). -/
def errWord (e : BitVec 4) : Word := 0#28 ++ e

/-- The read-only view `MAXDIM` (R76). -/
def maxDimWord (lim : Config.Limits) : Word := BitVec.ofNat 16 lim.maxH ++ BitVec.ofNat 16 lim.maxW

end Sys2Proof.Machine
end

