-- ==== Sys2Proof/Machine/Operands.lean ====
section
/-! DEFINITION. The data formats the computation depends on: the fields of a pixel, its keys and rescaled channels
(30_encoding.md rules R65 to R68), the words the host reads (rules R69 to R72), and the photo address (20_memory.md
rule R47). -/

namespace Sys2Proof.Machine

/-- The Level-4 key of a pixel (R66). -/
def k4 (px : Pixel) : CoarseKey := px.extractLsb' 12 4 ++ px.extractLsb' 7 4 ++ px.extractLsb' 1 4

/-- The Level-2 key of a pixel (R67). -/
def k2 (px : Pixel) : FineKey := px.extractLsb' 14 2 ++ px.extractLsb' 9 2 ++ px.extractLsb' 3 2

/-- Red rescaled to 6 bits (R68). -/
def r6 (px : Pixel) : Channel := px.extractLsb' 11 5 ++ 0#1

/-- Green as it is (R68). -/
def g6 (px : Pixel) : Channel := px.extractLsb' 5 6

/-- Blue rescaled to 6 bits (R68). -/
def b6 (px : Pixel) : Channel := px.extractLsb' 0 5 ++ 0#1

/-- A bucket with one pixel more: the four additions of rules R111 and R131, 32 bits wide (log entry 6). -/
def addPixel (px : Pixel) (b : Bucket) : Bucket where
  sumR := b.sumR + (r6 px).setWidth 32
  sumG := b.sumG + (g6 px).setWidth 32
  sumB := b.sumB + (b6 px).setWidth 32
  count := b.count + 1

/-- Field `f` of a bucket entry (R69). -/
def bucketField (b : Bucket) : BucketField → Word
  | .sumR => b.sumR
  | .sumG => b.sumG
  | .sumB => b.sumB
  | .count => b.count

/-- The read of a `SLOT_MAP` entry (R70). -/
def slotWord (e : SlotEntry) : Word := 0#24 ++ BitVec.ofBool e.sel ++ e.slot

/-- The read of a `DED_KEY` entry (R71). -/
def keyWord (k : CoarseKey) : Word := 0#20 ++ k

/-- The read of a palette entry (R72). -/
def paletteWord (c : Colour) : Word := 0#14 ++ c.r ++ c.g ++ c.b

/-- The read of a photo byte (R162). -/
def photoWord (b : Byte) : Word := 0#24 ++ b

/-- The index byte of a pixel whose Level-4 bucket has a given `SLOT_MAP` entry (R73, R151). -/
def indexByte (e : SlotEntry) (px : Pixel) : Byte :=
  if e.sel then 64#8 + e.slot.setWidth 8 else 64#8 + 128#8 + (k2 px).setWidth 8

/-- `photo_addr(n)` (R47), defined where column and row exist; none elsewhere (log entry 8). -/
def photoAddr (runW runH n : Nat) : Option Nat :=
  if 1 ≤ runW ∧ n / runW < runH then some ((runH - 1 - n / runW) * runW + n % runW) else none

end Sys2Proof.Machine
end

