-- ==== Sys2Proof/Machine/Ops.lean ====
section
/-! DEFINITION. The named operations over tables, RAMs, registers and the host port that every meaning is written in:
reading and writing an entry, the loops of rule R9, raising an error (60_exceptions.md rule R184), the phase check
(40_run_control.md rule R90), taking a host input, and reset (70_reset_and_hazards.md rule R200). -/

namespace Sys2Proof.Machine

/-- What an unlisted entry of a table reads as is its first argument. -/
def readEntry {α : Type} (d : α) : Table α → Nat → α
  | [], _ => d
  | (k, v) :: rest, i => if k = i then v else readEntry d rest i

/-- A table with no entry for an index. -/
def eraseEntry {α : Type} (i : Nat) (t : Table α) : Table α := t.filter fun e => e.1 != i

/-- A table with one entry listed at its place. -/
def insertEntry {α : Type} (i : Nat) (v : α) : Table α → Table α
  | [] => [(i, v)]
  | (k, w) :: rest =>
    if i < k then (i, v) :: (k, w) :: rest
    else if i = k then (i, v) :: rest
    else (k, w) :: insertEntry i v rest

/-- `T[i] <- v` (R9), keeping the canonical form: writing what an unlisted entry reads as removes the entry. -/
def writeEntry {α : Type} [DecidableEq α] (d : α) (t : Table α) (i : Nat) (v : α) : Table α :=
  if v = d then eraseEntry i t else insertEntry i v t

/-- The canonical form of a table of `size` entries whose unlisted entries read as `d` (log entry 5). -/
abbrev Memory.wf {α : Type} (d : α) (size : Nat) (t : Table α) : Prop :=
  t.Pairwise (fun a b => a.1 < b.1) ∧ ∀ e ∈ t, e.1 < size ∧ e.2 ≠ d

/-- `L4[k]` or `L2[j]` (R17, R18). -/
def readBucket (t : Table Bucket) (k : Nat) : Bucket := readEntry Bucket.zero t k

/-- The accumulation of one pixel into the bucket of a key (R111, R131). -/
def accumulate (t : Table Bucket) (k : Nat) (px : Pixel) : Table Bucket :=
  writeEntry Bucket.zero t k (addPixel px (readBucket t k))

/-- `SLOT_MAP[k]` (R20). -/
def readSlot (t : Table SlotEntry) (k : CoarseKey) : SlotEntry := readEntry SlotEntry.zero t k.toNat

/-- `DED_KEY[s]` (R19). -/
def readKey (t : Table CoarseKey) (s : Nat) : CoarseKey := readEntry 0 t s

/-- `PALETTE[s]` (R21). -/
def readColour (t : Table Colour) (s : Nat) : Colour := readEntry Colour.zero t s

/-- `PALETTE[s] <- c` (R141, R142). -/
def writeColour (t : Table Colour) (s : Nat) (c : Colour) : Table Colour := writeEntry Colour.zero t s c

/-- What element `n` of `PIXCACHE` holds (R22). -/
def cachedPixel (t : Table Pixel) (n : Nat) : Pixel := readEntry 0 t n

/-- What element `i` of `QPHOTO` holds (R23). -/
def photoByte (t : Table Byte) (i : Nat) : Byte := readEntry 0 t i

/-- `MemRead(PIXCACHE, n)`: an element at or above `MAX_N` does not exist (R41, log entry 7). -/
def cacheRead (lim : Config.Limits) (t : Table Pixel) (n : Nat) : Except Fault Pixel :=
  if n < lim.maxN then .ok (cachedPixel t n) else .error .pixCacheAbsent

/-- `MemWrite(PIXCACHE, n, px)` (R41, R112). -/
def cacheWrite (lim : Config.Limits) (t : Table Pixel) (n : Nat) (px : Pixel) : Except Fault (Table Pixel) :=
  if n < lim.maxN then .ok (writeEntry 0 t n px) else .error .pixCacheAbsent

/-- `MemRead(QPHOTO, i)` (R41, R162). -/
def photoRead (lim : Config.Limits) (t : Table Byte) (i : Nat) : Except Fault Byte :=
  if i < lim.maxN then .ok (photoByte t i) else .error .photoAbsent

/-- `MemWrite(QPHOTO, i, v)` (R41, R152). -/
def photoWrite (lim : Config.Limits) (t : Table Byte) (i : Nat) (v : Byte) : Except Fault (Table Byte) :=
  if i < lim.maxN then .ok (writeEntry 0 t i v) else .error .photoAbsent

/-- `for n in 0 .. count-1` (R9), ascending. -/
def forEach {σ : Type} : Nat → (Nat → σ → σ) → σ → σ
  | 0, _, x => x
  | n + 1, body, x => body n (forEach n body x)

/-- `for n in 0 .. count-1` (R9), ascending, over a body that can stop. -/
def forEachE {σ : Type} : Nat → (Nat → σ → Except Fault σ) → σ → Except Fault σ
  | 0, _, x => .ok x
  | n + 1, body, x =>
    match forEachE n body x with
    | .ok y => body n y
    | .error e => .error e

/-- The outcome of an operation that ends in a state or stops. -/
def outcomeOf (r : Except Fault State) : Host.Outcome State Fault Refusal :=
  match r with
  | .ok s => .next s
  | .error e => .fault e

/-- A read returns `v` (R60). -/
def respond (v : Word) (s : State) : State := { s with rdata := some v }

/-- `raise Err(f)` in a write: `ERR[f] <- 1` and nothing else (R184). -/
def raiseErr (f : ErrFlag) (s : State) : State := { s with err := setFlag f s.err }

/-- `raise Err(f)` in a read: as `raiseErr`, and the read returns 0 (R184). -/
def raiseErrRead (f : ErrFlag) (s : State) : State := respond 0 (raiseErr f s)

/-- The phase check of a command or a `PUSH`: outside the phases that allow it, `Err(SEQ)` (R90 step 2, R99, R110). -/
def inPhases (allowed : List Phase) (op : State → Host.Outcome State Fault Refusal) (s : State) :
    Host.Outcome State Fault Refusal :=
  if s.phase ∈ allowed then op s else .next (raiseErr .seq s)

/-- A transaction that matches no row raises one error and does nothing else (R52, R77, R100, R167). -/
def rejectTransaction (r : Reject) (s : State) : State :=
  match r with
  | .illegalCommand => raiseErr .illCmd s
  | .writeNotMapped => raiseErr .addr s
  | .readNotMapped => raiseErrRead .addr s

/-- The port admits the host's oldest input (R40, R48); no data has been returned for it yet. None when the host has
issued nothing (log entries 2, 3 and 11). -/
def admitInput (s : State) : Option (HostInput × State) :=
  match s.hostIn with
  | [] => none
  | x :: rest => some (x, { s with hostIn := rest, rdata := none })

/-- The state after reset is released, whatever it was before (R200, R201); what the host issues next is not lost
(log entry 10). -/
def applyReset (s : State) : State := { State.reset with hostIn := s.hostIn }

/-- The host issues a transaction as the next one to be admitted. -/
def issueNext (t : Txn) (s : State) : State := { s with hostIn := .transaction t :: s.hostIn }

end Sys2Proof.Machine
end

