-- ==== Sys2Proof/Machine/Averager.lean ====
section
/-! DEFINITION. `palette_averager`: `BUILD` (44_palette_averager.md). -/

namespace Sys2Proof.Machine

/-- The averaged colour of a bucket with a nonzero count: unsigned division rounding down, bits 5:0 (R8, R141). -/
def average (b : Bucket) : Colour where
  r := (b.sumR / b.count).extractLsb' 0 6
  g := (b.sumG / b.count).extractLsb' 0 6
  b := (b.sumB / b.count).extractLsb' 0 6

/-- A palette slot takes the average of its bucket; a bucket with count 0 leaves it as it is (R141, R142). -/
def averageInto (slot : Nat) (b : Bucket) (pal : Table Colour) : Table Colour :=
  if b.count = 0 then pal else writeColour pal slot (average b)

/-- The dedicated range, slots 0 to 127 (R141). -/
def dedicatedRange (s : State) (pal : Table Colour) : Table Colour :=
  forEach Config.numDed (fun slot p => averageInto slot (readBucket s.l4 (readKey s.dedKey slot).toNat) p) pal

/-- The shared range, slots 128 to 191 (R142). -/
def sharedRange (s : State) (pal : Table Colour) : Table Colour :=
  forEach Config.numL2 (fun j p => averageInto (Config.sharedBase + j) (readBucket s.l2 j) p) pal

/-- The operation of an admitted `BUILD` (R141, R142). -/
def buildPalette (s : State) : Host.Outcome State Fault Refusal :=
  .next { s with palette := sharedRange s (dedicatedRange s s.palette), phase := .built }

/-- `BUILD` (R140 to R142). -/
def execBuild (s : State) : Host.Outcome State Fault Refusal := inPhases [.refined] buildPalette s

end Sys2Proof.Machine
end

