-- ==== Sys2Proof/Machine/Bucketer.lean ====
section
/-! DEFINITION. `octree_color_bucketer`, pass 1: `PUSH` (41_l4_bucketer.md). -/

namespace Sys2Proof.Machine

/-- The phase after a pixel is taken: `FILLED` when the incremented `PIX_IDX` is `NPIX` (R112). -/
def phaseAfterPush (s : State) : Phase := if s.pixIdx + 1 = s.npix then .filled else s.phase

/-- The operation of an admitted `PUSH` (R111, R112). -/
def pushPixel (lim : Config.Limits) (px : Pixel) (s : State) : Host.Outcome State Fault Refusal :=
  match cacheWrite lim s.pixCache s.pixIdx.toNat px with
  | .error e => .fault e
  | .ok cache =>
    .next { s with
      l4 := accumulate s.l4 (k4 px).toNat px
      pixCache := cache
      pixIdx := s.pixIdx + 1
      phase := phaseAfterPush s }

/-- `PUSH px` on an instance (R110 to R112). -/
def pushOn (lim : Config.Limits) (px : Pixel) (s : State) : Host.Outcome State Fault Refusal :=
  inPhases [.fill] (pushPixel lim px) s

/-- `PUSH px` (R110 to R112). -/
def execPush (px : Pixel) (s : State) : Host.Outcome State Fault Refusal := pushOn Config.limits px s

end Sys2Proof.Machine
end

