-- ==== Sys2Proof/Machine/IndexEncoder.lean ====
section
/-! DEFINITION. `palette_index_encoder`, pass 3: `ENCODE`, writing `quantized_photo_ram` (45_index_encoder.md). -/

namespace Sys2Proof.Machine

/-- `index(px)` (R151). -/
def indexOf (slots : Table SlotEntry) (px : Pixel) : Byte := indexByte (readSlot slots (k4 px)) px

/-- One pixel of pass 3: the index byte of cached pixel `n` goes to `photo_addr(n)` (R152). -/
def encodePixel (lim : Config.Limits) (s : State) (n : Nat) (photo : Table Byte) : Except Fault (Table Byte) :=
  match cacheRead lim s.pixCache n with
  | .error e => .error e
  | .ok px =>
    match photoAddr s.runW.toNat s.runH.toNat n with
    | none => .error .photoAddressUndefined
    | some a => photoWrite lim photo a (indexOf s.slotMap px)

/-- The walk of pass 3 over the first `count` pixels (R152). -/
def encodeWalk (lim : Config.Limits) (s : State) (count : Nat) : Except Fault (Table Byte) :=
  forEachE count (encodePixel lim s) s.qPhoto

/-- The operation of an admitted `ENCODE` (R152, R153). -/
def encodePass (lim : Config.Limits) (s : State) : Host.Outcome State Fault Refusal :=
  match encodeWalk lim s s.npix.toNat with
  | .ok photo => .next { s with qPhoto := photo, phase := .done }
  | .error e => .fault e

/-- `ENCODE` on an instance (R150 to R153). -/
def encodeOn (lim : Config.Limits) (s : State) : Host.Outcome State Fault Refusal :=
  inPhases [.built] (encodePass lim) s

/-- `ENCODE` (R150 to R153). -/
def execEncode (s : State) : Host.Outcome State Fault Refusal := encodeOn Config.limits s

end Sys2Proof.Machine
end

