-- ==== Sys2Proof/Machine/Ranker.lean ====
section
/-! DEFINITION. `bucket_ranker_selector`: `RANK` (42_bucket_ranker.md). The order is computed by sorting (key, count)
pairs, the document's own advice; a slot is a position in the sorted list (log entry 13). -/

namespace Sys2Proof.Machine

/-- `L4[k].count` as a number. -/
def countOf (l4 : Table Bucket) (k : Nat) : Nat := (readBucket l4 k).count.toNat

/-- `before(a, b)` on (key, count) pairs: the greater count first, the lower key among equals (R121). -/
def pairBefore (a b : Nat × Nat) : Bool := b.2 < a.2 || (a.2 == b.2 && a.1 < b.1)

/-- A ranked list headed by `x`, whose tail merges by `tail`, merged with another ranked list. -/
def mergeHead (x : Nat × Nat) (tail : List (Nat × Nat) → List (Nat × Nat)) : List (Nat × Nat) → List (Nat × Nat)
  | [] => x :: tail []
  | y :: ys => if pairBefore y x then y :: mergeHead x tail ys else x :: tail (y :: ys)

/-- Two ranked lists merged into one. -/
def mergeRanked : List (Nat × Nat) → List (Nat × Nat) → List (Nat × Nat)
  | [] => fun ys => ys
  | x :: xs => fun ys => mergeHead x (mergeRanked xs) ys

/-- The (key, count) pairs of the `2 ^ depth` keys from `first` on, in ranking order: a merge sort by halves. -/
def rankedFrom (l4 : Table Bucket) : Nat → Nat → List (Nat × Nat)
  | 0, first => [(first, countOf l4 first)]
  | depth + 1, first => mergeRanked (rankedFrom l4 depth first) (rankedFrom l4 depth (first + 2 ^ depth))

/-- The (key, count) pairs of all 4096 buckets in ranking order (R121): `4096 = 2 ^ 12` keys. Irreducible, so
that no proof computes it by accident. -/
@[irreducible] def ranking (l4 : Table Bucket) : List (Nat × Nat) := rankedFrom l4 12 0

/-- The keys of the first 128 buckets, in rank order (R122). -/
def dedicatedKeys (l4 : Table Bucket) : List Nat := ((ranking l4).take Config.numDed).map (·.1)

/-- Writes a list of entries, first to last. -/
def writeEntries {α : Type} [DecidableEq α] (d : α) (t : Table α) : List (Nat × α) → Table α
  | [] => t
  | (i, v) :: rest => writeEntries d (writeEntry d t i v) rest

/-- `DED_KEY` after `RANK`: all 128 entries, slot to key (R122). -/
def dedKeyTable (keys : List Nat) : Table CoarseKey :=
  writeEntries 0 [] (keys.zipIdx.map fun e => (e.2, BitVec.ofNat 12 e.1))

/-- `SLOT_MAP` after `RANK`: `(1, rank)` for a dedicated key, `(0, 0)` for every other (R122). -/
def slotMapTable (keys : List Nat) : Table SlotEntry :=
  writeEntries SlotEntry.zero [] (keys.zipIdx.map fun e => (e.1, ⟨true, BitVec.ofNat 7 e.2⟩))

/-- The operation of an admitted `RANK` (R122). -/
def selectDedicated (s : State) : Host.Outcome State Fault Refusal :=
  let keys := dedicatedKeys s.l4
  .next { s with dedKey := dedKeyTable keys, slotMap := slotMapTable keys, phase := .ranked }

/-- `RANK` (R120 to R122). -/
def execRank (s : State) : Host.Outcome State Fault Refusal := inPhases [.filled] selectDedicated s

end Sys2Proof.Machine
end

