-- ==== Sys2Proof/Machine/Readout.lean ====
section
/-! DEFINITION. Read-out: the control registers, the two outputs and the four debug windows (46_readout.md). -/

namespace Sys2Proof.Machine

/-- The word that control register `a` reads as, none where it is unmapped (R160). -/
def registerWord (lim : Config.Limits) (a : BitVec 4) (s : State) : Option Word :=
  match a.toNat with
  | 0 => some 0
  | 1 => some (statusWord s.phase)
  | 2 => some (errWord s.err)
  | 3 => some s.width
  | 4 => some s.height
  | 5 => some 0
  | 6 => some s.pixIdx
  | 7 => some s.npix
  | 8 => some s.runW
  | 9 => some s.runH
  | 10 => some (maxDimWord lim)
  | _ => none

/-- `RDREG a` on an instance (R160). -/
def readRegisterOn (lim : Config.Limits) (a : BitVec 4) (s : State) : Host.Outcome State Fault Refusal :=
  match registerWord lim a s with
  | some v => .next (respond v s)
  | none => .next (raiseErrRead .addr s)

/-- `RDREG a` (R160). -/
def execRdreg (a : BitVec 4) (s : State) : Host.Outcome State Fault Refusal := readRegisterOn Config.limits a s

/-- `RDPAL s`: gated by `DONE`; slots from 192 up are unmapped (R161). -/
def execRdpal (slot : BitVec 8) (s : State) : Host.Outcome State Fault Refusal :=
  if 192 ≤ slot.toNat then .next (raiseErrRead .addr s)
  else if s.phase = .done then .next (respond (paletteWord (readColour s.palette slot.toNat)) s)
  else .next (respond 0 s)

/-- `RDPHOTO i` on an instance: gated by `DONE` and by `i < NPIX` (R162). -/
def readPhotoOn (lim : Config.Limits) (i : BitVec 24) (s : State) : Host.Outcome State Fault Refusal :=
  if s.phase = .done ∧ i.toNat < s.npix.toNat then
    match photoRead lim s.qPhoto i.toNat with
    | .ok v => .next (respond (photoWord v) s)
    | .error e => .fault e
  else .next (respond 0 s)

/-- `RDPHOTO i` (R162). -/
def execRdphoto (i : BitVec 24) (s : State) : Host.Outcome State Fault Refusal := readPhotoOn Config.limits i s

/-- A debug read: 0 in `IDLE`, else the word (R163 to R166). -/
def debugRead (v : Word) (s : State) : Host.Outcome State Fault Refusal :=
  .next (respond (if s.phase = .idle then 0 else v) s)

/-- `RDL4 k, f` (R163). -/
def execRdl4 (k : CoarseKey) (f : BucketField) (s : State) : Host.Outcome State Fault Refusal :=
  debugRead (bucketField (readBucket s.l4 k.toNat) f) s

/-- `RDL2 j, f` (R164). -/
def execRdl2 (j : FineKey) (f : BucketField) (s : State) : Host.Outcome State Fault Refusal :=
  debugRead (bucketField (readBucket s.l2 j.toNat) f) s

/-- `RDSLOT k` (R165). -/
def execRdslot (k : CoarseKey) (s : State) : Host.Outcome State Fault Refusal :=
  debugRead (slotWord (readSlot s.slotMap k)) s

/-- `RDDED s` (R166). -/
def execRdded (slot : BitVec 7) (s : State) : Host.Outcome State Fault Refusal :=
  debugRead (keyWord (readKey s.dedKey slot.toNat)) s

end Sys2Proof.Machine
end

