-- ==== Sys2Proof/Machine/Refinement.lean ====
section
/-! DEFINITION. `octree_refinement_bucketer`, pass 2: `REFINE` (43_l2_refinement.md). -/

namespace Sys2Proof.Machine

/-- One pixel of pass 2: skipped when its Level-4 bucket is dedicated, else added to its Level-2 bucket (R131). -/
def refinePixel (slots : Table SlotEntry) (px : Pixel) (l2 : Table Bucket) : Table Bucket :=
  if (readSlot slots (k4 px)).sel then l2 else accumulate l2 (k2 px).toNat px

/-- The walk of pass 2 over the first `count` pixels of the cache (R131). -/
def refineWalk (lim : Config.Limits) (s : State) (count : Nat) : Except Fault (Table Bucket) :=
  forEachE count
    (fun n l2 =>
      match cacheRead lim s.pixCache n with
      | .ok px => .ok (refinePixel s.slotMap px l2)
      | .error e => .error e)
    s.l2

/-- The operation of an admitted `REFINE` (R131). -/
def refinePass (lim : Config.Limits) (s : State) : Host.Outcome State Fault Refusal :=
  match refineWalk lim s s.npix.toNat with
  | .ok l2 => .next { s with l2 := l2, phase := .refined }
  | .error e => .fault e

/-- `REFINE` on an instance (R130, R131). -/
def refineOn (lim : Config.Limits) (s : State) : Host.Outcome State Fault Refusal :=
  inPhases [.ranked] (refinePass lim) s

/-- `REFINE` (R130, R131). -/
def execRefine (s : State) : Host.Outcome State Fault Refusal := refineOn Config.limits s

end Sys2Proof.Machine
end

