-- ==== Sys2Proof/Machine/RunControl.lean ====
section
/-! DEFINITION. Run control: `NOP`, `START`, `ABORT`, `SETW`, `SETH`, `CLRERR` (40_run_control.md). -/

namespace Sys2Proof.Machine

/-- `NOP`: nothing (R91). -/
def execNop (s : State) : Host.Outcome State Fault Refusal := .next s

/-- The operation of an admitted `START` whose dimensions passed the check (R94). -/
def beginRun (s : State) : State :=
  let n := s.width * s.height
  { s with
    runW := s.width
    runH := s.height
    npix := n
    pixIdx := 0
    l4 := []
    l2 := []
    slotMap := []
    dedKey := []
    palette := []
    phase := if 1 ≤ n.toNat then .fill else .filled }

/-- The size check of `START` for an instance, then its operation (R93, R94). -/
def startChecked (lim : Config.Limits) (s : State) : Host.Outcome State Fault Refusal :=
  if lim.maxW < s.width.toNat ∨ lim.maxH < s.height.toNat then .next (raiseErr .size s) else .next (beginRun s)

/-- `START` on an instance (R92 to R94). -/
def startOn (lim : Config.Limits) (s : State) : Host.Outcome State Fault Refusal :=
  inPhases [.idle, .done] (startChecked lim) s

/-- `START` (R92 to R94). -/
def execStart (s : State) : Host.Outcome State Fault Refusal := startOn Config.limits s

/-- `ABORT`: `PHASE <- IDLE` (R95). -/
def execAbort (s : State) : Host.Outcome State Fault Refusal := .next { s with phase := .idle }

/-- `SETW v`: `WIDTH <- v` (R96). -/
def execSetw (v : Word) (s : State) : Host.Outcome State Fault Refusal := .next { s with width := v }

/-- `SETH v`: `HEIGHT <- v` (R97). -/
def execSeth (v : Word) (s : State) : Host.Outcome State Fault Refusal := .next { s with height := v }

/-- `CLRERR m`: `ERR <- ERR and (not m)` (R98). -/
def execClrerr (m : BitVec 4) (s : State) : Host.Outcome State Fault Refusal :=
  .next { s with err := clearFlags m s.err }

end Sys2Proof.Machine
end

