-- ==== Sys2Proof/Machine/Dispatch.lean ====
section
/-! DEFINITION. One arm per transaction form, each a direct call of its meaning. -/

namespace Sys2Proof.Machine

def exec (i : Instr) (s : State) : Host.Outcome State Fault Refusal :=
  match i with
  | .nop => Sys2Proof.Machine.execNop s
  | .start => Sys2Proof.Machine.execStart s
  | .rank => Sys2Proof.Machine.execRank s
  | .refine => Sys2Proof.Machine.execRefine s
  | .build => Sys2Proof.Machine.execBuild s
  | .encode => Sys2Proof.Machine.execEncode s
  | .abort => Sys2Proof.Machine.execAbort s
  | .push px => Sys2Proof.Machine.execPush px s
  | .setw v => Sys2Proof.Machine.execSetw v s
  | .seth v => Sys2Proof.Machine.execSeth v s
  | .clrerr m => Sys2Proof.Machine.execClrerr m s
  | .rdreg a => Sys2Proof.Machine.execRdreg a s
  | .rdpal slot => Sys2Proof.Machine.execRdpal slot s
  | .rdded slot => Sys2Proof.Machine.execRdded slot s
  | .rdl2 j f => Sys2Proof.Machine.execRdl2 j f s
  | .rdslot k => Sys2Proof.Machine.execRdslot k s
  | .rdl4 k f => Sys2Proof.Machine.execRdl4 k f s
  | .rdphoto idx => Sys2Proof.Machine.execRdphoto idx s

end Sys2Proof.Machine
end

