-- ==== Sys2Proof/Machine/Step.lean ====
section
/-! DEFINITION. One step of the core: the oldest input of the host, with its whole effect (20_memory.md rules R40, R45
and R48; 70_reset_and_hazards.md rules R200, R207 and R212). -/

namespace Sys2Proof.Machine

/-- One step. With no input of the host nothing changes (R212, log entry 11); a reset gives the state of rule R201; a
transaction that matches a row of the opcode table runs it, and one that matches none raises its error (R77). -/
def step (s : State) : Host.Outcome State Fault Refusal :=
  match admitInput s with
  | none => .next s
  | some (.reset, s1) => .next (applyReset s1)
  | some (.transaction t, s1) =>
    match decode t with
    | .ok i => exec i s1
    | .error r => .next (rejectTransaction r s1)

/-- The state in which the next step takes the transaction of a table word (log entry 2). -/
def State.withFetchWord (s : State) (nbits w : Nat) : State := issueNext (tableTxn nbits w) s

end Sys2Proof.Machine
end

