-- ==== Sys2Proof/Safety.lean ====
section
/-! DEFINITION. The vocabulary of claims: the invariants of 10_state.md (rules R12 to R24), the ranking order of rule
R121 as the rule counts it, and which states a host cannot tell apart (rules R25 and R201). -/

namespace Sys2Proof.Machine

/-- Every table and RAM is in canonical form and lists only entries that exist (R11, R41, log entry 5). -/
structure MemoryWf (lim : Config.Limits) (s : State) : Prop where
  l4 : Memory.wf Bucket.zero Config.numL4 s.l4
  l2 : Memory.wf Bucket.zero Config.numL2 s.l2
  dedKey : Memory.wf (0 : CoarseKey) Config.numDed s.dedKey
  slotMap : Memory.wf SlotEntry.zero Config.numL4 s.slotMap
  palette : Memory.wf Colour.zero Config.numPal s.palette
  pixCache : Memory.wf (0 : Pixel) lim.maxN s.pixCache
  qPhoto : Memory.wf (0 : Byte) lim.maxN s.qPhoto

/-- The relations between the registers that hold between transactions (R12, R13, R15). -/
structure Inv (lim : Config.Limits) (s : State) : Prop where
  memory : MemoryWf lim s
  runW_le : s.runW.toNat ≤ lim.maxW
  runH_le : s.runH.toNat ≤ lim.maxH
  npix_eq : s.npix.toNat = s.runW.toNat * s.runH.toNat
  pixIdx_le : s.pixIdx.toNat ≤ s.npix.toNat
  pixel_due : s.phase = .fill → s.pixIdx.toNat < s.npix.toNat
  pass_complete : s.phase ≠ .idle → s.phase ≠ .fill → s.pixIdx = s.npix

/-- The first `m` pixels of the stream that satisfy a test, in stream order (R22). -/
def streamPixels (s : State) (m : Nat) (p : Pixel → Bool) : List Pixel :=
  ((List.range m).map (cachedPixel s.pixCache)).filter p

/-- A bucket holds exactly the totals of a list of pixels (R17). -/
structure HoldsTotals (b : Bucket) (ps : List Pixel) : Prop where
  sumR : b.sumR.toNat = (ps.map fun px => (r6 px).toNat).sum
  sumG : b.sumG.toNat = (ps.map fun px => (g6 px).toNat).sum
  sumB : b.sumB.toNat = (ps.map fun px => (b6 px).toNat).sum
  count : b.count.toNat = ps.length

/-- `before(a, b)` (R121). -/
def before (l4 : Table Bucket) (a b : Nat) : Bool :=
  countOf l4 b < countOf l4 a || (countOf l4 a == countOf l4 b && a < b)

/-- `rank(k) = #{ a : before(a, k) }` (R121). Irreducible, so that no proof counts by accident. -/
@[irreducible] def rankOf (l4 : Table Bucket) (k : Nat) : Nat := (List.range Config.numL4).countP fun a => before l4 a k

/-- `DED_KEY` and `SLOT_MAP` record the first 128 ranks (R19, R20, R122). -/
def RecordsRanking (s : State) : Prop :=
  ∀ k : CoarseKey,
    if rankOf s.l4 k.toNat < 128 then
      readKey s.dedKey (rankOf s.l4 k.toNat) = k ∧ readSlot s.slotMap k = ⟨true, BitVec.ofNat 7 (rankOf s.l4 k.toNat)⟩
    else readSlot s.slotMap k = SlotEntry.zero

/-- The colour a bucket gives its palette slot: the averages rounded down, or the default when it counts nothing
(R8, R141, R142). -/
def meanColour (b : Bucket) : Colour :=
  if b.count.toNat = 0 then Colour.zero
  else
    { r := BitVec.ofNat 6 (b.sumR.toNat / b.count.toNat)
      g := BitVec.ofNat 6 (b.sumG.toNat / b.count.toNat)
      b := BitVec.ofNat 6 (b.sumB.toNat / b.count.toNat) }

/-- The bucket whose average palette slot `slot` holds: dedicated below 128, shared from 128 up (R141, R142). -/
def slotBucket (s : State) (slot : Nat) : Bucket :=
  if slot < 128 then readBucket s.l4 (readKey s.dedKey slot).toNat else readBucket s.l2 (slot - 128)

/-- The phases after `RANK`. -/
abbrev afterRank (p : Phase) : Prop := p = .ranked ∨ p = .refined ∨ p = .built ∨ p = .done

/-- The phases after `REFINE`. -/
abbrev afterRefine (p : Phase) : Prop := p = .refined ∨ p = .built ∨ p = .done

/-- The phases after `BUILD`. -/
abbrev afterBuild (p : Phase) : Prop := p = .built ∨ p = .done

/-- What the tables hold in each phase of a run: the invariants of R24, and what the passes leave (R94, R122, R141,
R142, R152). -/
structure RunInv (s : State) : Prop where
  coarse : s.phase ≠ .idle → ∀ k : CoarseKey,
    HoldsTotals (readBucket s.l4 k.toNat) (streamPixels s s.pixIdx.toNat fun px => k4 px == k)
  fineCleared : s.phase ≠ .idle → ¬ afterRefine s.phase → ∀ j : FineKey, readBucket s.l2 j.toNat = Bucket.zero
  ranked : afterRank s.phase → RecordsRanking s
  fine : afterRefine s.phase → ∀ j : FineKey,
    HoldsTotals (readBucket s.l2 j.toNat)
      (streamPixels s s.npix.toNat fun px => !(readSlot s.slotMap (k4 px)).sel && k2 px == j)
  paletteCleared : s.phase ≠ .idle → ¬ afterBuild s.phase → ∀ slot, readColour s.palette slot = Colour.zero
  averaged : afterBuild s.phase → ∀ slot, slot < 192 → readColour s.palette slot = meanColour (slotBucket s slot)
  encoded : s.phase = .done → ∀ n, n < s.npix.toNat →
    ∃ a, photoAddr s.runW.toNat s.runH.toNat n = some a ∧
      photoByte s.qPhoto a = indexOf s.slotMap (cachedPixel s.pixCache n)

/-- Two states that a host cannot tell apart: equal registers and pending inputs, equal data just returned, and equal
contents wherever the phase lets a rule or a read reach them (R25, R201). -/
structure SameToHost (s t : State) : Prop where
  phase : t.phase = s.phase
  err : t.err = s.err
  width : t.width = s.width
  height : t.height = s.height
  runW : t.runW = s.runW
  runH : t.runH = s.runH
  npix : t.npix = s.npix
  pixIdx : t.pixIdx = s.pixIdx
  hostIn : t.hostIn = s.hostIn
  rdata : t.rdata = s.rdata
  l4 : s.phase ≠ .idle → ∀ k, readBucket t.l4 k = readBucket s.l4 k
  l2 : s.phase ≠ .idle → ∀ j, readBucket t.l2 j = readBucket s.l2 j
  dedKey : s.phase ≠ .idle → ∀ slot, readKey t.dedKey slot = readKey s.dedKey slot
  slotMap : s.phase ≠ .idle → ∀ k, readSlot t.slotMap k = readSlot s.slotMap k
  palette : s.phase ≠ .idle → ∀ slot, readColour t.palette slot = readColour s.palette slot
  pixCache : s.phase ≠ .idle → ∀ n, n < s.pixIdx.toNat → cachedPixel t.pixCache n = cachedPixel s.pixCache n
  qPhoto : s.phase = .done → ∀ i, i < s.npix.toNat → photoByte t.qPhoto i = photoByte s.qPhoto i

/-- A state with another value of `ERR` and nothing else changed. -/
def withErr (e : BitVec 4) (s : State) : State := { s with err := e }

/-- The instruction reads `ERR` for the host (R160). -/
abbrev readsErr (i : Instr) : Prop := i = .rdreg 2

/-- The word numbers that R42 maps for a read. -/
def readMapped (a : Nat) : Prop :=
  a ≤ 0xA ∨ (0x100 ≤ a ∧ a ≤ 0x1BF) ∨ (0x200 ≤ a ∧ a ≤ 0x27F) ∨ (0x300 ≤ a ∧ a ≤ 0x3FF) ∨
    (0x1000 ≤ a ∧ a ≤ 0x1FFF) ∨ (0x4000 ≤ a ∧ a ≤ 0x7FFF) ∨ (0x1000000 ≤ a ∧ a ≤ 0x1FFFFFF)

/-- The transaction raised `SEQ` and changed nothing else. -/
def onlySeq (s t : State) : Prop := t = { s with err := s.err ||| 2#4 }

end Sys2Proof.Machine
end

