-- ==== Sys2Proof/Certificates/Slice0/Obligations.lean ====
section
/-! DEFINITION. The statements for the provers, each from the numbered rules its docstring names. -/

open Sys2Proof Sys2Proof.Machine

/-! ### Encoding -/

/-- Every instruction, with every operand at every value, is what its own transaction word decodes to
(30_encoding.md sections 1 to 3). -/
def Obligations.DecodeEncodeRoundTrip : Prop := ∀ i : Instr, decode (encode i) = .ok i

/-- The decoder accepts exactly the words that match a row of spec/opcode_table.json, answers an instruction of that
row, and no word matches two rows (R60). -/
def Obligations.DecoderAgreesWithOpcodeTable : Prop :=
  ∀ t : Txn,
    ((∃ i, decode t = .ok i ∧ t &&& rowMask i = rowMatch i) ∨
      ((∃ r, decode t = .error r) ∧ ∀ i : Instr, t &&& rowMask i ≠ rowMatch i)) ∧
    ∀ i j : Instr, t &&& rowMask i = rowMatch i → t &&& rowMask j = rowMatch j → rowMatch i = rowMatch j

/-- Decoding drops no bit of a word but the ignored ones (R63, R78). -/
def Obligations.DecodeDropsOnlyIgnoredBits : Prop :=
  ∀ (t : Txn) (i : Instr), decode t = .ok i → encode i = t &&& significantMask i

/-- Words of 95_test_vectors.md, programs P1 and P5 and vectors V3 and V8, decode to the transactions they are. -/
def Obligations.SampleWordsDecode : Prop :=
  decode 0x10000000000000001#65 = .ok .start ∧
  decode 0x10000000300000002#65 = .ok (.setw 2) ∧
  decode 0x100000005DEAD07E0#65 = .ok (.push 0x07E0) ∧
  decode 0x10000000200000005#65 = .ok (.clrerr 5) ∧
  decode 0x00000000A00000000#65 = .ok (.rdreg 10) ∧
  decode 0x0000001BF00000000#65 = .ok (.rdpal 191) ∧
  decode 0x00000031F00000000#65 = .ok (.rdl2 7 .count) ∧
  decode 0x000007FC300000000#65 = .ok (.rdl4 0xFF0 .count) ∧
  decode 0x10000000000000012#65 = .error .illegalCommand ∧
  decode 0x10000000100000005#65 = .error .writeNotMapped ∧
  decode 0x00000028000000000#65 = .error .readNotMapped

/-! ### The step, reset, illegal words -/

/-- When the host's next transaction decodes to an instruction, the step is that instruction's meaning, with the
transaction taken from the host's inputs and nothing returned for it yet (`rdata`, log entry 3). -/
def Obligations.StepRunsDecodedInstruction : Prop :=
  ∀ (s : State) (t : Txn) (rest : List HostInput) (i : Instr),
    s.hostIn = .transaction t :: rest → decode t = .ok i →
      step s = exec i { s with hostIn := rest, rdata := none }

/-- With nothing issued nothing changes (R212). A reset gives the reset state from any state (R200), and what the host
issues after it is kept (log entry 10). That the tables and RAMs are all zero after a reset, as the equality with
`State.reset` says, is the model's choice, log entry 4: R201 leaves their contents unspecified, and R25 permits zero. -/
def Obligations.IdleAndResetSteps : Prop :=
  ∀ s : State,
    (s.hostIn = [] → step s = .next s) ∧
    ∀ rest, s.hostIn = .reset :: rest → step s = .next { State.reset with hostIn := rest }

/-- The register values that R201 gives for reset. -/
def Obligations.ResetRegisterValues : Prop :=
  State.reset.phase = .idle ∧ validFlag State.reset.phase = false ∧ State.reset.err = 0 ∧
  State.reset.width = 0 ∧ State.reset.height = 0 ∧ State.reset.runW = 0 ∧ State.reset.runH = 0 ∧
  State.reset.npix = 0 ∧ State.reset.pixIdx = 0

/-- The parameters of the instance meet the constraints of R4. -/
def Obligations.InstanceParametersAreLegal : Prop :=
  (1 ≤ Config.limits.maxW ∧ Config.limits.maxW ≤ 65535) ∧ (1 ≤ Config.limits.maxH ∧ Config.limits.maxH ≤ 65535) ∧
  Config.limits.maxN = Config.limits.maxW * Config.limits.maxH ∧ Config.limits.maxN ≤ 2 ^ 24

/-- Every transaction word that is no instruction, or names an unmapped location, sets one flag of `ERR` and changes
nothing else (R52, R77): an illegal command (data from 7 up: a nonzero upper part, or `op` in 7 to 15) sets `ILLCMD`;
a write to a read-only or unmapped address sets `ADDR`; a read of an unmapped address returns 0 and sets `ADDR`; a
read of a write-only address returns 0 and sets nothing. What is returned stands in `rdata`, none for a write (log entry
3). -/
def Obligations.IllegalAndUnmappedTransactions : Prop :=
  ∀ (s : State) (a d : Word),
    (7 ≤ d.toNat → step (issueNext (makeTxn true 0 d) s) = .next { s with rdata := none, err := s.err ||| 4#4 }) ∧
    (a.toNat ≠ 0 → a.toNat ≠ 2 → a.toNat ≠ 3 → a.toNat ≠ 4 → a.toNat ≠ 5 →
      step (issueNext (makeTxn true a d) s) = .next { s with rdata := none, err := s.err ||| 8#4 }) ∧
    (¬ readMapped a.toNat →
      step (issueNext (makeTxn false a d) s) = .next { s with rdata := some 0, err := s.err ||| 8#4 }) ∧
    (a.toNat = 0 ∨ a.toNat = 5 → step (issueNext (makeTxn false a d) s) = .next { s with rdata := some 0 })

/-! ### Run control -/

/-- `NOP`, `SETW` and `SETH` run in every state, in every phase, with their own effect and no other, whatever data
bits a register write holds (R91, R96, R97). -/
def Obligations.NopSetwSethComplete : Prop :=
  ∀ (s : State) (v : Word),
    decode (makeTxn true 0 0) = .ok .nop ∧ exec .nop s = .next s ∧
    decode (makeTxn true 3 v) = .ok (.setw v) ∧ exec (.setw v) s = .next { s with width := v } ∧
    decode (makeTxn true 4 v) = .ok (.seth v) ∧ exec (.seth v) s = .next { s with height := v }

/-- `CLRERR` runs in every state: a flag whose bit in `m` is 1 becomes 0, the others keep their value, nothing else
changes; `wdata[31:4]` is ignored (R98). -/
def Obligations.ClrerrClearsChosenFlags : Prop :=
  ∀ (s : State) (d : Word) (m : BitVec 4),
    decode (makeTxn true 2 d) = .ok (.clrerr (d.extractLsb' 0 4)) ∧
    ∃ t, exec (.clrerr m) s = .next t ∧
      (∀ b, b < 4 → t.err.getLsbD b = (s.err.getLsbD b && !m.getLsbD b)) ∧
      t = { s with err := t.err }

/-- `ABORT` runs in every state: the phase becomes `IDLE`, nothing else changes, every window then reads 0, and a
`PUSH` raises `SEQ` only (R95). -/
def Obligations.AbortHidesTheRun : Prop :=
  ∀ (s t : State), t = { s with phase := .idle } →
    decode (makeTxn true 0 6) = .ok .abort ∧ exec .abort s = .next t ∧
    (∀ a : Word, readMapped a.toNat → 0x100 ≤ a.toNat →
      step (issueNext (makeTxn false a 0) t) = .next { t with rdata := some 0 }) ∧
    ∀ px, exec (.push px) t = .next { t with err := s.err ||| 2#4 }

/-- The size check of `START`, in the phases that admit it: a width or height above its maximum sets `SIZE` and changes
nothing else; any other pair passes, zero included (R93). -/
def Obligations.StartChecksSize : Prop :=
  ∀ s : State, s.phase = .idle ∨ s.phase = .done →
    (Config.limits.maxW < s.width.toNat ∨ Config.limits.maxH < s.height.toNat →
      exec .start s = .next { s with err := s.err ||| 1#4 }) ∧
    (s.width.toNat ≤ Config.limits.maxW → s.height.toNat ≤ Config.limits.maxH →
      ∃ t, exec .start s = .next t ∧ t.err = s.err ∧ (t.phase = .fill ∨ t.phase = .filled))

/-- The operation of `START`: the dimensions are copied, `NPIX` is their exact product, the five tables are zero, the
RAMs and every other register keep their contents (R94). -/
def Obligations.StartBeginsRun : Prop :=
  ∀ s : State, s.phase = .idle ∨ s.phase = .done →
    s.width.toNat ≤ Config.limits.maxW → s.height.toNat ≤ Config.limits.maxH →
    ∃ t, exec .start s = .next t ∧
      t.runW = s.width ∧ t.runH = s.height ∧ t.npix.toNat = s.width.toNat * s.height.toNat ∧
      t.npix.toNat ≤ Config.limits.maxN ∧ t.pixIdx = 0 ∧
      (∀ k, readBucket t.l4 k = ⟨0, 0, 0, 0⟩) ∧ (∀ j, readBucket t.l2 j = ⟨0, 0, 0, 0⟩) ∧
      (∀ k, readSlot t.slotMap k = ⟨false, 0⟩) ∧ (∀ slot, readKey t.dedKey slot = 0) ∧
      (∀ slot, readColour t.palette slot = ⟨0, 0, 0⟩) ∧
      t.phase = (if 1 ≤ s.width.toNat * s.height.toNat then Phase.fill else Phase.filled) ∧
      t.err = s.err ∧ t.width = s.width ∧ t.height = s.height ∧ t.pixCache = s.pixCache ∧ t.qPhoto = s.qPhoto ∧
      t.hostIn = s.hostIn ∧ t.rdata = s.rdata

/-- The phase-transition table, row by row, and `SEQ` with nothing else changed in every phase a row does not list
(R99), from every state that meets the invariant. -/
def Obligations.PhaseTransitionTable : Prop :=
  ∀ (s t : State) (i : Instr), Inv Config.limits s → exec i s = .next t →
    match i with
    | .nop => t.phase = s.phase
    | .start =>
      if s.phase = .idle ∨ s.phase = .done then
        if s.width.toNat ≤ Config.limits.maxW ∧ s.height.toNat ≤ Config.limits.maxH then
          if 1 ≤ s.width.toNat * s.height.toNat then t.phase = .fill else t.phase = .filled
        else t.phase = s.phase
      else onlySeq s t
    | .push _ =>
      if s.phase = .fill then
        t.pixIdx.toNat = s.pixIdx.toNat + 1 ∧
        (t.pixIdx.toNat < t.npix.toNat ∧ t.phase = .fill ∨ t.pixIdx = t.npix ∧ t.phase = .filled)
      else onlySeq s t
    | .rank => if s.phase = .filled then t.phase = .ranked else onlySeq s t
    | .refine => if s.phase = .ranked then t.phase = .refined else onlySeq s t
    | .build => if s.phase = .refined then t.phase = .built else onlySeq s t
    | .encode => if s.phase = .built then t.phase = .done else onlySeq s t
    | .abort => t.phase = .idle
    | .setw _ => t.phase = s.phase
    | .seth _ => t.phase = s.phase
    | .clrerr _ => t.phase = s.phase
    | .rdreg _ => t.phase = s.phase
    | .rdpal _ => t.phase = s.phase
    | .rdded _ => t.phase = s.phase
    | .rdl2 _ _ => t.phase = s.phase
    | .rdslot _ => t.phase = s.phase
    | .rdl4 _ _ => t.phase = s.phase
    | .rdphoto _ => t.phase = s.phase

/-- Only an `ENCODE` from `BUILT` makes the photo valid, and a photo that stays valid through a step is left exactly as
it is: dimensions, palette and bytes (R185, R209). -/
def Obligations.ValidPhotoIsFinal : Prop :=
  ∀ (s t : State), step s = .next t → t.phase = .done →
    (s.phase = .built ∧ ∃ w rest, s.hostIn = .transaction w :: rest ∧ decode w = .ok .encode) ∨
    (s.phase = .done ∧ t.runW = s.runW ∧ t.runH = s.runH ∧ t.npix = s.npix ∧ t.palette = s.palette ∧
      t.qPhoto = s.qPhoto ∧ t.slotMap = s.slotMap ∧ t.pixCache = s.pixCache)

/-! ### The six blocks -/

/-- An admitted `PUSH`: one bucket of `L4` gains the rescaled channels and one count, the pixel is cached at `PIX_IDX`,
`PIX_IDX` advances, the phase becomes `FILLED` when `PIX_IDX` reaches `NPIX`; nothing else changes (R111, R112). The sums
are 32-bit sums here; that they are exact in every run is `PushAdditionsAreExact`. -/
def Obligations.PushCountsAndCaches : Prop :=
  ∀ (s : State) (px : Pixel), s.phase = .fill → s.pixIdx.toNat < Config.limits.maxN →
    ∃ t, exec (.push px) s = .next t ∧
      (∀ k : CoarseKey, readBucket t.l4 k.toNat =
        if k = k4 px then
          { sumR := (readBucket s.l4 k.toNat).sumR + BitVec.ofNat 32 (2 * (px.toNat / 2048))
            sumG := (readBucket s.l4 k.toNat).sumG + BitVec.ofNat 32 (px.toNat / 32 % 64)
            sumB := (readBucket s.l4 k.toNat).sumB + BitVec.ofNat 32 (2 * (px.toNat % 32))
            count := (readBucket s.l4 k.toNat).count + 1 }
        else readBucket s.l4 k.toNat) ∧
      (∀ n, cachedPixel t.pixCache n = if n = s.pixIdx.toNat then px else cachedPixel s.pixCache n) ∧
      t.pixIdx = s.pixIdx + 1 ∧
      t.phase = (if t.pixIdx = s.npix then Phase.filled else Phase.fill) ∧
      t = { s with l4 := t.l4, pixCache := t.pixCache, pixIdx := t.pixIdx, phase := t.phase }

/-- In every run the four additions of `PUSH` are exact, and exactly one entry of `L4` changes (R6, R111). -/
def Obligations.PushAdditionsAreExact : Prop :=
  ∀ (s t : State) (px : Pixel), Inv Config.limits s → RunInv s → s.phase = .fill → exec (.push px) s = .next t →
    (readBucket t.l4 (k4 px).toNat).sumR.toNat = (readBucket s.l4 (k4 px).toNat).sumR.toNat + (r6 px).toNat ∧
    (readBucket t.l4 (k4 px).toNat).sumG.toNat = (readBucket s.l4 (k4 px).toNat).sumG.toNat + (g6 px).toNat ∧
    (readBucket t.l4 (k4 px).toNat).sumB.toNat = (readBucket s.l4 (k4 px).toNat).sumB.toNat + (b6 px).toNat ∧
    (readBucket t.l4 (k4 px).toNat).count.toNat = (readBucket s.l4 (k4 px).toNat).count.toNat + 1 ∧
    ∀ k : CoarseKey, k ≠ k4 px → readBucket t.l4 k.toNat = readBucket s.l4 k.toNat

/-- The keys and rescaled channels of a pixel as numbers (R66, R67, R68), and the Level-2 key as a function of the
Level-4 key (R67). -/
def Obligations.PixelKeysAndChannels : Prop :=
  ∀ px : Pixel,
    (k4 px).toNat = px.toNat / 4096 * 256 + px.toNat / 128 % 16 * 16 + px.toNat / 2 % 16 ∧
    (k2 px).toNat = px.toNat / 16384 * 16 + px.toNat / 512 % 4 * 4 + px.toNat / 8 % 4 ∧
    (r6 px).toNat = 2 * (px.toNat / 2048) ∧ (g6 px).toNat = px.toNat / 32 % 64 ∧ (b6 px).toNat = 2 * (px.toNat % 32) ∧
    (k2 px).toNat = (k4 px).toNat / 1024 * 16 + (k4 px).toNat / 64 % 4 * 4 + (k4 px).toNat / 4 % 4

/-- An admitted `RANK` records the ranking order in both tables and changes nothing else: with
`rank(k) = #{ a : before(a, k) }`, a key of rank below 128 gets its rank as its slot, every other key is not dedicated
(R121, R122). -/
def Obligations.RankRecordsRankingOrder : Prop :=
  ∀ s : State, s.phase = .filled →
    ∃ t, exec .rank s = .next t ∧
      (∀ k : CoarseKey,
        if rankOf s.l4 k.toNat < 128 then
          readKey t.dedKey (rankOf s.l4 k.toNat) = k ∧
          readSlot t.slotMap k = ⟨true, BitVec.ofNat 7 (rankOf s.l4 k.toNat)⟩
        else readSlot t.slotMap k = ⟨false, 0⟩) ∧
      t = { s with dedKey := t.dedKey, slotMap := t.slotMap, phase := .ranked }

/-- After `RANK` exactly 128 keys are dedicated, `DED_KEY` and `SLOT_MAP` invert each other on the 128 slots, the 128 keys
are pairwise different, and no key outside has a greater count than one inside (R19, R20, R124). -/
def Obligations.DedicatedBucketsAreTheMostPopulous : Prop :=
  ∀ s t : State, s.phase = .filled → exec .rank s = .next t →
    ((List.range 4096).filter fun k => (readSlot t.slotMap (BitVec.ofNat 12 k)).sel).length = 128 ∧
    (∀ slot : BitVec 7, readSlot t.slotMap (readKey t.dedKey slot.toNat) = ⟨true, slot⟩) ∧
    (∀ a b, a < 128 → b < 128 → readKey t.dedKey a = readKey t.dedKey b → a = b) ∧
    (∀ d o : CoarseKey, (readSlot t.slotMap d).sel = true → (readSlot t.slotMap o).sel = false →
      countOf s.l4 o.toNat ≤ countOf s.l4 d.toNat)

/-- With no pixel counted at all, the 128 lowest keys fill the slots in key order (R123). -/
def Obligations.EmptyBucketsFillSlotsInKeyOrder : Prop :=
  ∀ s t : State, s.phase = .filled → (∀ k, k < 4096 → countOf s.l4 k = 0) → exec .rank s = .next t →
    (∀ slot, slot < 128 → readKey t.dedKey slot = BitVec.ofNat 12 slot) ∧
    ∀ k : CoarseKey, readSlot t.slotMap k = if k.toNat < 128 then ⟨true, BitVec.ofNat 7 k.toNat⟩ else ⟨false, 0⟩

/-- An admitted `REFINE` adds to each Level-2 bucket the rescaled channels and the number of the pixels of the run that
have its key and no dedicated Level-4 bucket, and changes nothing else; in every run it starts from all zero and the
totals are exact (R131). -/
def Obligations.RefineAddsUndedicatedPixels : Prop :=
  ∀ s : State, s.phase = .ranked → s.npix.toNat ≤ Config.limits.maxN →
    ∃ t, exec .refine s = .next t ∧
      (∀ j : FineKey, ∀ ps, ps = streamPixels s s.npix.toNat
          (fun px => !(readSlot s.slotMap (k4 px)).sel && k2 px == j) →
        readBucket t.l2 j.toNat =
          { sumR := (readBucket s.l2 j.toNat).sumR + BitVec.ofNat 32 (ps.map fun px => (r6 px).toNat).sum
            sumG := (readBucket s.l2 j.toNat).sumG + BitVec.ofNat 32 (ps.map fun px => (g6 px).toNat).sum
            sumB := (readBucket s.l2 j.toNat).sumB + BitVec.ofNat 32 (ps.map fun px => (b6 px).toNat).sum
            count := (readBucket s.l2 j.toNat).count + BitVec.ofNat 32 ps.length } ∧
        (Inv Config.limits s → RunInv s →
          readBucket s.l2 j.toNat = Bucket.zero ∧ HoldsTotals (readBucket t.l2 j.toNat) ps)) ∧
      t = { s with l2 := t.l2, phase := .refined }

/-- An admitted `BUILD` writes the rounded-down averages of every nonempty bucket into its slot, dedicated slots 0 to 127
and shared slots 128 to 191, leaves the slots of empty buckets as they are, and changes nothing else (R141, R142). -/
def Obligations.BuildAveragesEveryNonemptyBucket : Prop :=
  ∀ s : State, s.phase = .refined →
    ∃ t, exec .build s = .next t ∧
      (∀ slot, readColour t.palette slot =
        if slot < 192 ∧ (slotBucket s slot).count.toNat ≠ 0 then meanColour (slotBucket s slot)
        else readColour s.palette slot) ∧
      t = { s with palette := t.palette, phase := .built }

/-- In every run a channel average fits 6 bits, and red and blue are at most 62 (R143). -/
def Obligations.ChannelAveragesFitSixBits : Prop :=
  ∀ (s : State) (slot : Nat), Inv Config.limits s → RunInv s → afterRefine s.phase → slot < 192 →
    (slotBucket s slot).count.toNat ≠ 0 →
    (slotBucket s slot).sumR.toNat / (slotBucket s slot).count.toNat ≤ 62 ∧
    (slotBucket s slot).sumG.toNat / (slotBucket s slot).count.toNat ≤ 63 ∧
    (slotBucket s slot).sumB.toNat / (slotBucket s slot).count.toNat ≤ 62

/-- An admitted `ENCODE`, from a state that meets the invariant, writes the index byte of pixel `n` at the pixel's place
with rows inverted, for every pixel of the run, leaves every other byte as it is, and changes nothing else (R151,
R152). -/
def Obligations.EncodeWritesIndexesRowsInverted : Prop :=
  ∀ s : State, Inv Config.limits s → s.phase = .built →
    ∃ t, exec .encode s = .next t ∧
      (∀ n px, n < s.npix.toNat → px = cachedPixel s.pixCache n →
        (photoByte t.qPhoto
          ((s.runH.toNat - 1 - n / s.runW.toNat) * s.runW.toNat + n % s.runW.toNat)).toNat =
          if (readSlot s.slotMap (k4 px)).sel then 64 + (readSlot s.slotMap (k4 px)).slot.toNat
          else 192 + (k2 px).toNat) ∧
      (∀ a, s.npix.toNat ≤ a → photoByte t.qPhoto a = photoByte s.qPhoto a) ∧
      t = { s with qPhoto := t.qPhoto, phase := .done }

/-- `photo_addr` is defined on the pixels of a run and maps them one to one onto the photo's elements (R47). -/
def Obligations.PhotoAddressIsOneToOne : Prop :=
  ∀ w h : Nat,
    (∀ n, n < w * h → ∃ a, photoAddr w h n = some a ∧ a = (h - 1 - n / w) * w + n % w ∧ a < w * h) ∧
    (∀ n m a, n < w * h → m < w * h → photoAddr w h n = some a → photoAddr w h m = some a → n = m) ∧
    (∀ a, a < w * h → ∃ n, n < w * h ∧ photoAddr w h n = some a)

/-! ### Read-out -/

/-- A read of word number `a` below 16 is `RDREG a`; it returns its register and changes nothing else; numbers 11 to 15
return 0 and set `ADDR` (R160, with the formats of R74, R75 and R76). `STATUS` reads the codes of R12, and 6 + 8 in
`DONE`. -/
def Obligations.ControlRegisterReads : Prop :=
  ∀ s : State,
    (∀ a : BitVec 4, decode (makeTxn false (BitVec.ofNat 32 a.toNat) 0) = .ok (.rdreg a)) ∧
    exec (.rdreg 0) s = .next { s with rdata := some 0 } ∧
    (s.phase = .idle → exec (.rdreg 1) s = .next { s with rdata := some 0 }) ∧
    (s.phase = .fill → exec (.rdreg 1) s = .next { s with rdata := some 1 }) ∧
    (s.phase = .filled → exec (.rdreg 1) s = .next { s with rdata := some 2 }) ∧
    (s.phase = .ranked → exec (.rdreg 1) s = .next { s with rdata := some 3 }) ∧
    (s.phase = .refined → exec (.rdreg 1) s = .next { s with rdata := some 4 }) ∧
    (s.phase = .built → exec (.rdreg 1) s = .next { s with rdata := some 5 }) ∧
    (s.phase = .done → exec (.rdreg 1) s = .next { s with rdata := some 0xE }) ∧
    exec (.rdreg 2) s = .next { s with rdata := some (BitVec.ofNat 32 s.err.toNat) } ∧
    exec (.rdreg 3) s = .next { s with rdata := some s.width } ∧
    exec (.rdreg 4) s = .next { s with rdata := some s.height } ∧
    exec (.rdreg 5) s = .next { s with rdata := some 0 } ∧
    exec (.rdreg 6) s = .next { s with rdata := some s.pixIdx } ∧
    exec (.rdreg 7) s = .next { s with rdata := some s.npix } ∧
    exec (.rdreg 8) s = .next { s with rdata := some s.runW } ∧
    exec (.rdreg 9) s = .next { s with rdata := some s.runH } ∧
    (∀ v, v = Config.limits.maxH * 65536 + Config.limits.maxW →
      exec (.rdreg 10) s = .next { s with rdata := some (BitVec.ofNat 32 v) }) ∧
    ∀ a : BitVec 4, 11 ≤ a.toNat → exec (.rdreg a) s = .next { s with rdata := some 0, err := s.err ||| 8#4 }

/-- A palette read, by word number `0x100 + s`: the packed entry in `DONE`, 0 in every other phase, and 0 with `ADDR` for
slots from 192 up (R161, R72). -/
def Obligations.PaletteReads : Prop :=
  ∀ (s : State) (slot : BitVec 8) (c : Colour), c = readColour s.palette slot.toNat →
    decode (makeTxn false (BitVec.ofNat 32 (0x100 + slot.toNat)) 0) = .ok (.rdpal slot) ∧
    exec (.rdpal slot) s = .next
      (if 192 ≤ slot.toNat then { s with rdata := some 0, err := s.err ||| 8#4 }
       else if s.phase = .done then { s with rdata := some (BitVec.ofNat 32 (c.r.toNat * 4096 + c.g.toNat * 64 + c.b.toNat)) }
       else { s with rdata := some 0 })

/-- A photo read, by word number `0x0100_0000 + i`: the byte in `DONE` when `i < NPIX`, else 0, never an error; in every
run a byte of the photo is 64 to 255, so a returned 0 is none (R162). -/
def Obligations.PhotoReads : Prop :=
  ∀ (s : State) (i : BitVec 24) (v : Word), s.npix.toNat ≤ Config.limits.maxN →
    v = (if s.phase = .done ∧ i.toNat < s.npix.toNat then BitVec.ofNat 32 (photoByte s.qPhoto i.toNat).toNat else 0) →
    decode (makeTxn false (BitVec.ofNat 32 (0x1000000 + i.toNat)) 0) = .ok (.rdphoto i) ∧
    exec (.rdphoto i) s = .next { s with rdata := some v } ∧
    (Inv Config.limits s → RunInv s → s.phase = .done → i.toNat < s.npix.toNat → 64 ≤ v.toNat ∧ v.toNat ≤ 255)

/-- The four debug windows, by word number: the entry in every phase but `IDLE`, where they read 0; nothing else changes
(R163 to R166, with the formats of R69 to R71). The word numbers of a bucket are those of its four fields in the order
of R42: `4*k` for `sum_r`, then `sum_g`, `sum_b` and `count`. -/
def Obligations.DebugWindowReads : Prop :=
  ∀ (s : State) (k : CoarseKey) (j : FineKey) (slot : BitVec 7) (shown : Word → Word),
    (∀ v, shown v = if s.phase = .idle then 0 else v) →
    (decode (makeTxn false (BitVec.ofNat 32 (0x4000 + 4 * k.toNat)) 0) = .ok (.rdl4 k .sumR) ∧
      decode (makeTxn false (BitVec.ofNat 32 (0x4000 + 4 * k.toNat + 1)) 0) = .ok (.rdl4 k .sumG) ∧
      decode (makeTxn false (BitVec.ofNat 32 (0x4000 + 4 * k.toNat + 2)) 0) = .ok (.rdl4 k .sumB) ∧
      decode (makeTxn false (BitVec.ofNat 32 (0x4000 + 4 * k.toNat + 3)) 0) = .ok (.rdl4 k .count) ∧
      exec (.rdl4 k .sumR) s = .next { s with rdata := some (shown (readBucket s.l4 k.toNat).sumR) } ∧
      exec (.rdl4 k .sumG) s = .next { s with rdata := some (shown (readBucket s.l4 k.toNat).sumG) } ∧
      exec (.rdl4 k .sumB) s = .next { s with rdata := some (shown (readBucket s.l4 k.toNat).sumB) } ∧
      exec (.rdl4 k .count) s = .next { s with rdata := some (shown (readBucket s.l4 k.toNat).count) }) ∧
    (decode (makeTxn false (BitVec.ofNat 32 (0x300 + 4 * j.toNat)) 0) = .ok (.rdl2 j .sumR) ∧
      decode (makeTxn false (BitVec.ofNat 32 (0x300 + 4 * j.toNat + 1)) 0) = .ok (.rdl2 j .sumG) ∧
      decode (makeTxn false (BitVec.ofNat 32 (0x300 + 4 * j.toNat + 2)) 0) = .ok (.rdl2 j .sumB) ∧
      decode (makeTxn false (BitVec.ofNat 32 (0x300 + 4 * j.toNat + 3)) 0) = .ok (.rdl2 j .count) ∧
      exec (.rdl2 j .sumR) s = .next { s with rdata := some (shown (readBucket s.l2 j.toNat).sumR) } ∧
      exec (.rdl2 j .sumG) s = .next { s with rdata := some (shown (readBucket s.l2 j.toNat).sumG) } ∧
      exec (.rdl2 j .sumB) s = .next { s with rdata := some (shown (readBucket s.l2 j.toNat).sumB) } ∧
      exec (.rdl2 j .count) s = .next { s with rdata := some (shown (readBucket s.l2 j.toNat).count) }) ∧
    (decode (makeTxn false (BitVec.ofNat 32 (0x1000 + k.toNat)) 0) = .ok (.rdslot k) ∧
      ∀ v, v = (if (readSlot s.slotMap k).sel then 128 else 0) + (readSlot s.slotMap k).slot.toNat →
        exec (.rdslot k) s = .next { s with rdata := some (shown (BitVec.ofNat 32 v)) }) ∧
    (decode (makeTxn false (BitVec.ofNat 32 (0x200 + slot.toNat)) 0) = .ok (.rdded slot) ∧
      exec (.rdded slot) s = .next { s with rdata := some (shown (BitVec.ofNat 32 (readKey s.dedKey slot.toNat).toNat)) })

/-- A read of a mapped address changes no state, and repeating it returns the same value (R46). -/
def Obligations.MappedReadsHaveNoSideEffect : Prop :=
  ∀ (s t : State) (i : Instr), i.isRead = true → i.wellFormed = true → exec i s = .next t →
    t = { s with rdata := t.rdata } ∧ t.rdata ≠ none ∧ exec i t = .next t

/-! ### Errors -/

/-- An error is precise: a transaction that sets a flag of `ERR` sets exactly one and changes nothing else; a write then
returns nothing, a read 0 (R184). -/
def Obligations.ErrorsArePrecise : Prop :=
  ∀ (s t : State) (w : Txn) (rest : List HostInput),
    s.hostIn = .transaction w :: rest → step s = .next t → t.err &&& ~~~s.err ≠ 0 →
    ∃ f d, d = (if txnIsWrite w then none else some (0 : Word)) ∧
      t = { s with hostIn := rest, err := s.err ||| (1#4 <<< errBit f), rdata := d }

/-- What raises which flag (R180): an instruction that newly sets a flag is one of the table's, for the table's cause,
and none sets `ILLCMD` (a write to `CMD` that raises it is no instruction). -/
def Obligations.EveryErrorHasItsCause : Prop :=
  ∀ (s t : State) (i : Instr) (b : Nat), exec i s = .next t → s.err.getLsbD b = false → t.err.getLsbD b = true →
    (b = 0 ∧ i = .start ∧ (Config.limits.maxW < s.width.toNat ∨ Config.limits.maxH < s.height.toNat)) ∨
    (b = 1 ∧ ((i = .start ∧ s.phase ≠ .idle ∧ s.phase ≠ .done) ∨ ((∃ px, i = .push px) ∧ s.phase ≠ .fill) ∨
      (i = .rank ∧ s.phase ≠ .filled) ∨ (i = .refine ∧ s.phase ≠ .ranked) ∨ (i = .build ∧ s.phase ≠ .refined) ∨
      (i = .encode ∧ s.phase ≠ .built))) ∨
    (b = 3 ∧ i.isRead = true ∧ i.wellFormed = false)

/-- Error flags are sticky: a step keeps every set flag unless its input is a reset or a `CLRERR` (R16, R188). -/
def Obligations.OnlyClrerrAndResetClearFlags : Prop :=
  ∀ s t : State, step s = .next t →
    (∀ b, s.err.getLsbD b = true → t.err.getLsbD b = true) ∨
    (∃ rest, s.hostIn = .reset :: rest) ∨
    ∃ w rest m, s.hostIn = .transaction w :: rest ∧ decode w = .ok (.clrerr m)

/-- No operation reads `ERR`: with another value of `ERR` every instruction but the read of `ERR` itself has the same
outcome but for `ERR` (R16, R188). -/
def Obligations.ErrNeverChangesBehaviour : Prop :=
  ∀ (i : Instr) (s t : State) (e : BitVec 4), ¬ readsErr i → exec i s = .next t →
    ∃ e', exec i (withErr e s) = .next (withErr e' t)

/-! ### Invariants and whole-machine claims -/

/-- The reset state meets both invariants. -/
def Obligations.ResetMeetsInvariants : Prop := Inv Config.limits State.reset ∧ RunInv State.reset

/-- Every step from a state that meets the register and memory invariant goes on, to a state that meets it: no step
faults or is refused (R13, R15, R44, R184, R207). -/
def Obligations.EveryStepGoesOnAndKeepsInv : Prop :=
  ∀ s : State, Inv Config.limits s → ∃ t, step s = .next t ∧ Inv Config.limits t

/-- Every step keeps what the tables hold in each phase of a run (R24). -/
def Obligations.EveryStepKeepsRunInv : Prop :=
  ∀ s t : State, Inv Config.limits s → RunInv s → step s = .next t → RunInv t

/-- Once pass 2 is complete every pixel of the run is counted exactly once, in its dedicated bucket or in its shared one
(R24 item 4). -/
def Obligations.EveryPixelIsCountedOnce : Prop :=
  ∀ s : State, Inv Config.limits s → RunInv s → afterRefine s.phase →
    ((List.range 128).map fun slot => countOf s.l4 (readKey s.dedKey slot).toNat).sum +
      ((List.range 64).map fun j => (readBucket s.l2 j).count.toNat).sum = s.npix.toNat

/-- In `DONE` the index byte of every pixel is at least 64, points at a slot whose bucket counts at least one pixel, and
the colour of that slot has the pixel's key in its upper bits: the Level-4 key below 192, the Level-2 key from 192 up
(R24 item 5, R143 (b), R154 (b)). -/
def Obligations.EveryIndexDecodesToItsColourBucket : Prop :=
  ∀ (s : State) (n : Nat) (px : Pixel), Inv Config.limits s → RunInv s → s.phase = .done → n < s.npix.toNat →
    px = cachedPixel s.pixCache n →
    ∃ a v c, photoAddr s.runW.toNat s.runH.toNat n = some a ∧ v = (photoByte s.qPhoto a).toNat ∧
      64 ≤ v ∧ v ≤ 255 ∧ 1 ≤ (slotBucket s (v - 64)).count.toNat ∧ c = readColour s.palette (v - 64) ∧
      if v < 192 then c.r.toNat / 4 * 256 + c.g.toNat / 4 * 16 + c.b.toNat / 4 = (k4 px).toNat
      else c.r.toNat / 16 * 16 + c.g.toNat / 16 * 4 + c.b.toNat / 16 = (k2 px).toNat ∧ v = 192 + (k2 px).toNat

/-- What reset and earlier runs leave in tables and RAMs is never observed: two states that a host cannot tell apart take
any input to states it cannot tell apart, with equal data returned (R25, R201). -/
def Obligations.UnspecifiedContentsAreNeverObserved : Prop :=
  ∀ s t s' : State, Inv Config.limits s → Inv Config.limits t → SameToHost s t → step s = .next s' →
    ∃ t', step t = .next t' ∧ SameToHost s' t'
end

