-- ==== Sys2Proof/Laws/Decode.lean ====
section
/-! SUPPORT. Fields of a concatenation, the fields of a transaction word, and words that lie in a row of the opcode
table. -/

namespace Sys2Proof

section
variable {n m : Nat}

theorem extract_low (a : BitVec n) (b : BitVec m) : (a ++ b).extractLsb' 0 m = b := by
  ext i hi
  simp [BitVec.getLsbD_append, hi]

theorem extract_high (a : BitVec n) (b : BitVec m) : (a ++ b).extractLsb' m n = a := by
  ext i hi
  simp [BitVec.getLsbD_append, hi]

theorem extract_above (a : BitVec n) (b : BitVec m) (k w : Nat) :
    (a ++ b).extractLsb' (m + k) w = a.extractLsb' k w := by
  ext i hi
  have h : ¬ m + k + i < m := by omega
  simp [BitVec.getLsbD_append, h, show m + k + i - m = k + i by omega]

theorem extract_across (a : BitVec n) (b : BitVec m) (lo k : Nat) (h : lo + k = m) :
    (a ++ b).extractLsb' lo (n + k) = a ++ b.extractLsb' lo k := by
  subst h
  ext i hi
  simp only [BitVec.getElem_extractLsb', BitVec.getLsbD_append, BitVec.getElem_append]
  by_cases h : i < k
  · simp [h, show lo + i < lo + k by omega]
  · simp [h, show lo + i - (lo + k) = i - k by omega]
    exact BitVec.getLsbD_eq_getElem (by omega)

theorem extract_within (a : BitVec n) (b : BitVec m) (k w : Nat) (h : k + w ≤ m) :
    (a ++ b).extractLsb' k w = b.extractLsb' k w := by
  ext i hi
  simp [BitVec.getLsbD_append]
  omega

end

theorem makeTxn_isWrite (w : Bool) (a d : Word) : txnIsWrite (makeTxn w a d) = w := by
  have h : (makeTxn w a d).extractLsb' 64 1 = BitVec.ofBool w :=
    (extract_above (BitVec.ofBool w ++ a) d 32 1).trans (extract_high ..)
  rw [txnIsWrite, h]
  cases w <;> rfl

theorem makeTxn_addr (w : Bool) (a d : Word) : txnAddr (makeTxn w a d) = a :=
  (extract_above (BitVec.ofBool w ++ a) d 0 32).trans (extract_low ..)

theorem makeTxn_data (w : Bool) (a d : Word) : txnData (makeTxn w a d) = d := extract_low ..

@[simp] theorem decode_write (a d : Word) : decode (makeTxn true a d) = decodeWrite a d := by
  simp [decode, makeTxn_isWrite, makeTxn_addr, makeTxn_data]

@[simp] theorem decode_read (a d : Word) : decode (makeTxn false a d) = decodeRead a := by
  simp [decode, makeTxn_isWrite, makeTxn_addr]

/-- A word is the one made of its three fields (R60). -/
theorem makeTxn_fields (t : Txn) : makeTxn (txnIsWrite t) (txnAddr t) (txnData t) = t := by
  have hw : BitVec.ofBool (txnIsWrite t) = t.extractLsb' 64 1 := by
    rw [txnIsWrite]
    generalize t.extractLsb' 64 1 = b
    revert b
    decide
  have h : ((BitVec.ofBool (txnIsWrite t) ++ txnAddr t) ++ txnData t : BitVec (1 + 32 + 32)) = (t : BitVec (1 + 32 + 32)) := by
    rw [hw]
    ext i hi
    simp only [BitVec.getElem_append, txnAddr, txnData, BitVec.getElem_extractLsb']
    split
    · rw [Nat.zero_add]; rfl
    · split
      · rw [show 32 + (i - 32) = i by omega]; rfl
      · rw [show 64 + (i - 32 - 32) = i by omega]; rfl
  exact h

@[simp] theorem fieldOfCode_fieldCode (f : BucketField) : fieldOfCode (fieldCode f) = f := by cases f <;> rfl

@[simp] theorem fieldCode_fieldOfCode (c : BitVec 2) : fieldCode (fieldOfCode c) = c := by revert c; decide

theorem toNat_concat {n m : Nat} (a : BitVec n) (b : BitVec m) : (a ++ b).toNat = a.toNat * 2 ^ m + b.toNat := by
  rw [BitVec.toNat_append, ← Nat.shiftLeft_add_eq_or_of_lt b.isLt, Nat.shiftLeft_eq]

/-- The upper bits of a word number are a quotient. -/
theorem upper_eq_iff (a : Word) (lo k v : Nat) (h : lo + k = 32) (hv : v < 2 ^ k) :
    a.extractLsb' lo k = BitVec.ofNat k v ↔ a.toNat / 2 ^ lo = v := by
  have hlt : a.toNat / 2 ^ lo < 2 ^ k := by
    rw [Nat.div_lt_iff_lt_mul (by positivity), ← Nat.pow_add, Nat.add_comm, h]
    exact a.isLt
  rw [← BitVec.toNat_inj, BitVec.extractLsb'_toNat, BitVec.toNat_ofNat, Nat.mod_eq_of_lt hv, Nat.shiftRight_eq_div_pow,
    Nat.mod_eq_of_lt hlt]

/-- The read decoder by word numbers (R42, R64). -/
theorem decodeRead_eq (a : Word) : decodeRead a =
    if a.toNat / 16 = 0 then .ok (.rdreg (a.extractLsb' 0 4))
    else if a.toNat / 256 = 1 then .ok (.rdpal (a.extractLsb' 0 8))
    else if a.toNat / 128 = 4 then .ok (.rdded (a.extractLsb' 0 7))
    else if a.toNat / 256 = 3 then .ok (.rdl2 (a.extractLsb' 2 6) (fieldOfCode (a.extractLsb' 0 2)))
    else if a.toNat / 4096 = 1 then .ok (.rdslot (a.extractLsb' 0 12))
    else if a.toNat / 16384 = 1 then .ok (.rdl4 (a.extractLsb' 2 12) (fieldOfCode (a.extractLsb' 0 2)))
    else if a.toNat / 16777216 = 1 then .ok (.rdphoto (a.extractLsb' 0 24))
    else .error .readNotMapped := by
  have e1 := upper_eq_iff a 4 28 0 rfl (by decide)
  have e2 := upper_eq_iff a 8 24 1 rfl (by decide)
  have e3 := upper_eq_iff a 7 25 4 rfl (by decide)
  have e4 := upper_eq_iff a 8 24 3 rfl (by decide)
  have e5 := upper_eq_iff a 12 20 1 rfl (by decide)
  have e6 := upper_eq_iff a 14 18 1 rfl (by decide)
  have e7 := upper_eq_iff a 24 8 1 rfl (by decide)
  simp only [decodeRead, e1, e2, e3, e4, e5, e6, e7]
  norm_num

/-- The command decoder by data: commands 0 to 6 and nothing else (R61, R62, R77). -/
theorem decodeCommand_eq (d : Word) : decodeCommand d =
    if d.toNat = 0 then .ok .nop
    else if d.toNat = 1 then .ok .start
    else if d.toNat = 2 then .ok .rank
    else if d.toNat = 3 then .ok .refine
    else if d.toNat = 4 then .ok .build
    else if d.toNat = 5 then .ok .encode
    else if d.toNat = 6 then .ok .abort
    else .error .illegalCommand := by
  have e1 := upper_eq_iff d 4 28 0 rfl (by decide)
  have e2 : (d.extractLsb' 0 4).toNat = d.toNat % 16 := by simp [BitVec.extractLsb'_toNat]
  simp only [decodeCommand, e1, e2]
  by_cases h : d.toNat / 2 ^ 4 = 0
  · rw [if_pos h, Nat.mod_eq_of_lt (by omega)]
    split <;> simp_all
  · rw [if_neg h]
    simp only [show d.toNat ≠ 0 by omega, show d.toNat ≠ 1 by omega, show d.toNat ≠ 2 by omega,
      show d.toNat ≠ 3 by omega, show d.toNat ≠ 4 by omega, show d.toNat ≠ 5 by omega, show d.toNat ≠ 6 by omega,
      if_false]

/-- The write decoder by word number (R63, R77). -/
theorem decodeWrite_eq (a d : Word) : decodeWrite a d =
    if a.toNat = 0 then decodeCommand d
    else if a.toNat = 2 then .ok (.clrerr (d.extractLsb' 0 4))
    else if a.toNat = 3 then .ok (.setw d)
    else if a.toNat = 4 then .ok (.seth d)
    else if a.toNat = 5 then .ok (.push (d.extractLsb' 0 16))
    else .error .writeNotMapped := by
  rw [decodeWrite]
  split <;> simp_all

/-- A mask of every bit from `lo` up selects the words whose upper bits are the pattern's. -/
theorem and_mask_eq_iff {n : Nat} (t m : BitVec n) (lo : Nat) (hm : m &&& (BitVec.allOnes n <<< lo) = m) :
    t &&& (BitVec.allOnes n <<< lo) = m ↔ t.extractLsb' lo (n - lo) = m.extractLsb' lo (n - lo) := by
  constructor
  · intro h
    ext i hi
    have := congrArg (fun x => x.getLsbD (lo + i)) h
    simpa [show lo + i < n by omega, show i < n by omega] using this
  · intro h
    rw [← hm]
    ext i hi
    by_cases hl : i < lo
    · simp [hl]
    · have := congrArg (fun x => x.getLsbD (i - lo)) h
      simp only [BitVec.getLsbD_extractLsb', show i - lo < n - lo by omega, show lo + (i - lo) = i by omega,
        decide_true, Bool.true_and] at this
      simpa [hl, hi, show i - lo < n by omega] using this

end Sys2Proof
end

