-- ==== Sys2Proof/Laws/Loops.lean ====
section
/-! SUPPORT. What a loop leaves, by an invariant that its body keeps (R9); the phase check of a command; the port. -/

namespace Sys2Proof.Machine

theorem forEach_induction {σ : Type} {body : Nat → σ → σ} (P : Nat → σ → Prop) {x : σ} (init : P 0 x) :
    ∀ n, (∀ k, k < n → ∀ y, P k y → P (k + 1) (body k y)) → P n (forEach n body x)
  | 0, _ => init
  | n + 1, keep => keep n (by omega) _ (forEach_induction P init n fun k hk => keep k (by omega))

/-- A loop whose body always goes on from a state that meets the invariant goes on to its end. -/
theorem forEachE_completes {σ : Type} {body : Nat → σ → Except Fault σ} (P : Nat → σ → Prop) {x : σ} (init : P 0 x) :
    ∀ n, (∀ k, k < n → ∀ y, P k y → ∃ z, body k y = .ok z ∧ P (k + 1) z) →
      ∃ z, forEachE n body x = .ok z ∧ P n z
  | 0, _ => ⟨x, rfl, init⟩
  | n + 1, keep => by
    obtain ⟨y, hy, hP⟩ := forEachE_completes P init n fun k hk => keep k (by omega)
    obtain ⟨z, hz, hP'⟩ := keep n (by omega) y hP
    exact ⟨z, by simp [forEachE, hy, hz], hP'⟩

theorem inPhases_of_mem {allowed : List Phase} {op : State → Host.Outcome State Fault Refusal} {s : State}
    (h : s.phase ∈ allowed) : inPhases allowed op s = op s := if_pos h

theorem inPhases_of_not_mem {allowed : List Phase} {op : State → Host.Outcome State Fault Refusal} {s : State}
    (h : s.phase ∉ allowed) : inPhases allowed op s = .next (raiseErr .seq s) := if_neg h

/-- A phase check that answers a next state either ran the operation or raised `SEQ`. -/
theorem inPhases_next {allowed : List Phase} {op : State → Host.Outcome State Fault Refusal} {s t : State}
    (h : inPhases allowed op s = .next t) :
    (s.phase ∈ allowed ∧ op s = .next t) ∨ (s.phase ∉ allowed ∧ t = raiseErr .seq s) := by
  by_cases hp : s.phase ∈ allowed
  · exact .inl ⟨hp, by rwa [inPhases_of_mem hp] at h⟩
  · rw [inPhases_of_not_mem hp] at h
    exact .inr ⟨hp, by injection h with h; exact h.symm⟩

theorem admitInput_empty {s : State} (h : s.hostIn = []) : admitInput s = none := by simp [admitInput, h]

theorem admitInput_cons {s : State} {x : HostInput} {rest : List HostInput} (h : s.hostIn = x :: rest) :
    admitInput s = some (x, { s with hostIn := rest, rdata := none }) := by simp [admitInput, h]

end Sys2Proof.Machine
end

