-- ==== Sys2Proof/Laws/State.lean ====
section
/-! SUPPORT. One lemma per field per named update of State, each true by unfolding the update. -/

namespace Sys2Proof.Machine

@[simp] theorem respond_phase (v : Word) (s : State) : (respond v s).phase = s.phase := rfl
@[simp] theorem respond_err (v : Word) (s : State) : (respond v s).err = s.err := rfl
@[simp] theorem respond_width (v : Word) (s : State) : (respond v s).width = s.width := rfl
@[simp] theorem respond_height (v : Word) (s : State) : (respond v s).height = s.height := rfl
@[simp] theorem respond_runW (v : Word) (s : State) : (respond v s).runW = s.runW := rfl
@[simp] theorem respond_runH (v : Word) (s : State) : (respond v s).runH = s.runH := rfl
@[simp] theorem respond_npix (v : Word) (s : State) : (respond v s).npix = s.npix := rfl
@[simp] theorem respond_pixIdx (v : Word) (s : State) : (respond v s).pixIdx = s.pixIdx := rfl
@[simp] theorem respond_l4 (v : Word) (s : State) : (respond v s).l4 = s.l4 := rfl
@[simp] theorem respond_l2 (v : Word) (s : State) : (respond v s).l2 = s.l2 := rfl
@[simp] theorem respond_dedKey (v : Word) (s : State) : (respond v s).dedKey = s.dedKey := rfl
@[simp] theorem respond_slotMap (v : Word) (s : State) : (respond v s).slotMap = s.slotMap := rfl
@[simp] theorem respond_palette (v : Word) (s : State) : (respond v s).palette = s.palette := rfl
@[simp] theorem respond_pixCache (v : Word) (s : State) : (respond v s).pixCache = s.pixCache := rfl
@[simp] theorem respond_qPhoto (v : Word) (s : State) : (respond v s).qPhoto = s.qPhoto := rfl
@[simp] theorem respond_hostIn (v : Word) (s : State) : (respond v s).hostIn = s.hostIn := rfl
@[simp] theorem respond_rdata (v : Word) (s : State) : (respond v s).rdata = some v := rfl

@[simp] theorem raiseErr_phase (e : ErrFlag) (s : State) : (raiseErr e s).phase = s.phase := rfl
@[simp] theorem raiseErr_err (e : ErrFlag) (s : State) : (raiseErr e s).err = setFlag e s.err := rfl
@[simp] theorem raiseErr_width (e : ErrFlag) (s : State) : (raiseErr e s).width = s.width := rfl
@[simp] theorem raiseErr_height (e : ErrFlag) (s : State) : (raiseErr e s).height = s.height := rfl
@[simp] theorem raiseErr_runW (e : ErrFlag) (s : State) : (raiseErr e s).runW = s.runW := rfl
@[simp] theorem raiseErr_runH (e : ErrFlag) (s : State) : (raiseErr e s).runH = s.runH := rfl
@[simp] theorem raiseErr_npix (e : ErrFlag) (s : State) : (raiseErr e s).npix = s.npix := rfl
@[simp] theorem raiseErr_pixIdx (e : ErrFlag) (s : State) : (raiseErr e s).pixIdx = s.pixIdx := rfl
@[simp] theorem raiseErr_l4 (e : ErrFlag) (s : State) : (raiseErr e s).l4 = s.l4 := rfl
@[simp] theorem raiseErr_l2 (e : ErrFlag) (s : State) : (raiseErr e s).l2 = s.l2 := rfl
@[simp] theorem raiseErr_dedKey (e : ErrFlag) (s : State) : (raiseErr e s).dedKey = s.dedKey := rfl
@[simp] theorem raiseErr_slotMap (e : ErrFlag) (s : State) : (raiseErr e s).slotMap = s.slotMap := rfl
@[simp] theorem raiseErr_palette (e : ErrFlag) (s : State) : (raiseErr e s).palette = s.palette := rfl
@[simp] theorem raiseErr_pixCache (e : ErrFlag) (s : State) : (raiseErr e s).pixCache = s.pixCache := rfl
@[simp] theorem raiseErr_qPhoto (e : ErrFlag) (s : State) : (raiseErr e s).qPhoto = s.qPhoto := rfl
@[simp] theorem raiseErr_hostIn (e : ErrFlag) (s : State) : (raiseErr e s).hostIn = s.hostIn := rfl
@[simp] theorem raiseErr_rdata (e : ErrFlag) (s : State) : (raiseErr e s).rdata = s.rdata := rfl

@[simp] theorem raiseErrRead_phase (e : ErrFlag) (s : State) : (raiseErrRead e s).phase = s.phase := rfl
@[simp] theorem raiseErrRead_err (e : ErrFlag) (s : State) : (raiseErrRead e s).err = setFlag e s.err := rfl
@[simp] theorem raiseErrRead_width (e : ErrFlag) (s : State) : (raiseErrRead e s).width = s.width := rfl
@[simp] theorem raiseErrRead_height (e : ErrFlag) (s : State) : (raiseErrRead e s).height = s.height := rfl
@[simp] theorem raiseErrRead_runW (e : ErrFlag) (s : State) : (raiseErrRead e s).runW = s.runW := rfl
@[simp] theorem raiseErrRead_runH (e : ErrFlag) (s : State) : (raiseErrRead e s).runH = s.runH := rfl
@[simp] theorem raiseErrRead_npix (e : ErrFlag) (s : State) : (raiseErrRead e s).npix = s.npix := rfl
@[simp] theorem raiseErrRead_pixIdx (e : ErrFlag) (s : State) : (raiseErrRead e s).pixIdx = s.pixIdx := rfl
@[simp] theorem raiseErrRead_l4 (e : ErrFlag) (s : State) : (raiseErrRead e s).l4 = s.l4 := rfl
@[simp] theorem raiseErrRead_l2 (e : ErrFlag) (s : State) : (raiseErrRead e s).l2 = s.l2 := rfl
@[simp] theorem raiseErrRead_dedKey (e : ErrFlag) (s : State) : (raiseErrRead e s).dedKey = s.dedKey := rfl
@[simp] theorem raiseErrRead_slotMap (e : ErrFlag) (s : State) : (raiseErrRead e s).slotMap = s.slotMap := rfl
@[simp] theorem raiseErrRead_palette (e : ErrFlag) (s : State) : (raiseErrRead e s).palette = s.palette := rfl
@[simp] theorem raiseErrRead_pixCache (e : ErrFlag) (s : State) : (raiseErrRead e s).pixCache = s.pixCache := rfl
@[simp] theorem raiseErrRead_qPhoto (e : ErrFlag) (s : State) : (raiseErrRead e s).qPhoto = s.qPhoto := rfl
@[simp] theorem raiseErrRead_hostIn (e : ErrFlag) (s : State) : (raiseErrRead e s).hostIn = s.hostIn := rfl
@[simp] theorem raiseErrRead_rdata (e : ErrFlag) (s : State) : (raiseErrRead e s).rdata = some 0 := rfl

@[simp] theorem issueNext_phase (t : Txn) (s : State) : (issueNext t s).phase = s.phase := rfl
@[simp] theorem issueNext_err (t : Txn) (s : State) : (issueNext t s).err = s.err := rfl
@[simp] theorem issueNext_width (t : Txn) (s : State) : (issueNext t s).width = s.width := rfl
@[simp] theorem issueNext_height (t : Txn) (s : State) : (issueNext t s).height = s.height := rfl
@[simp] theorem issueNext_runW (t : Txn) (s : State) : (issueNext t s).runW = s.runW := rfl
@[simp] theorem issueNext_runH (t : Txn) (s : State) : (issueNext t s).runH = s.runH := rfl
@[simp] theorem issueNext_npix (t : Txn) (s : State) : (issueNext t s).npix = s.npix := rfl
@[simp] theorem issueNext_pixIdx (t : Txn) (s : State) : (issueNext t s).pixIdx = s.pixIdx := rfl
@[simp] theorem issueNext_l4 (t : Txn) (s : State) : (issueNext t s).l4 = s.l4 := rfl
@[simp] theorem issueNext_l2 (t : Txn) (s : State) : (issueNext t s).l2 = s.l2 := rfl
@[simp] theorem issueNext_dedKey (t : Txn) (s : State) : (issueNext t s).dedKey = s.dedKey := rfl
@[simp] theorem issueNext_slotMap (t : Txn) (s : State) : (issueNext t s).slotMap = s.slotMap := rfl
@[simp] theorem issueNext_palette (t : Txn) (s : State) : (issueNext t s).palette = s.palette := rfl
@[simp] theorem issueNext_pixCache (t : Txn) (s : State) : (issueNext t s).pixCache = s.pixCache := rfl
@[simp] theorem issueNext_qPhoto (t : Txn) (s : State) : (issueNext t s).qPhoto = s.qPhoto := rfl
@[simp] theorem issueNext_hostIn (t : Txn) (s : State) : (issueNext t s).hostIn = .transaction t :: s.hostIn := rfl
@[simp] theorem issueNext_rdata (t : Txn) (s : State) : (issueNext t s).rdata = s.rdata := rfl

@[simp] theorem applyReset_phase (s : State) : (applyReset s).phase = State.reset.phase := rfl
@[simp] theorem applyReset_err (s : State) : (applyReset s).err = State.reset.err := rfl
@[simp] theorem applyReset_width (s : State) : (applyReset s).width = State.reset.width := rfl
@[simp] theorem applyReset_height (s : State) : (applyReset s).height = State.reset.height := rfl
@[simp] theorem applyReset_runW (s : State) : (applyReset s).runW = State.reset.runW := rfl
@[simp] theorem applyReset_runH (s : State) : (applyReset s).runH = State.reset.runH := rfl
@[simp] theorem applyReset_npix (s : State) : (applyReset s).npix = State.reset.npix := rfl
@[simp] theorem applyReset_pixIdx (s : State) : (applyReset s).pixIdx = State.reset.pixIdx := rfl
@[simp] theorem applyReset_l4 (s : State) : (applyReset s).l4 = State.reset.l4 := rfl
@[simp] theorem applyReset_l2 (s : State) : (applyReset s).l2 = State.reset.l2 := rfl
@[simp] theorem applyReset_dedKey (s : State) : (applyReset s).dedKey = State.reset.dedKey := rfl
@[simp] theorem applyReset_slotMap (s : State) : (applyReset s).slotMap = State.reset.slotMap := rfl
@[simp] theorem applyReset_palette (s : State) : (applyReset s).palette = State.reset.palette := rfl
@[simp] theorem applyReset_pixCache (s : State) : (applyReset s).pixCache = State.reset.pixCache := rfl
@[simp] theorem applyReset_qPhoto (s : State) : (applyReset s).qPhoto = State.reset.qPhoto := rfl
@[simp] theorem applyReset_hostIn (s : State) : (applyReset s).hostIn = s.hostIn := rfl
@[simp] theorem applyReset_rdata (s : State) : (applyReset s).rdata = State.reset.rdata := rfl

@[simp] theorem withErr_phase (e : BitVec 4) (s : State) : (withErr e s).phase = s.phase := rfl
@[simp] theorem withErr_err (e : BitVec 4) (s : State) : (withErr e s).err = e := rfl
@[simp] theorem withErr_width (e : BitVec 4) (s : State) : (withErr e s).width = s.width := rfl
@[simp] theorem withErr_height (e : BitVec 4) (s : State) : (withErr e s).height = s.height := rfl
@[simp] theorem withErr_runW (e : BitVec 4) (s : State) : (withErr e s).runW = s.runW := rfl
@[simp] theorem withErr_runH (e : BitVec 4) (s : State) : (withErr e s).runH = s.runH := rfl
@[simp] theorem withErr_npix (e : BitVec 4) (s : State) : (withErr e s).npix = s.npix := rfl
@[simp] theorem withErr_pixIdx (e : BitVec 4) (s : State) : (withErr e s).pixIdx = s.pixIdx := rfl
@[simp] theorem withErr_l4 (e : BitVec 4) (s : State) : (withErr e s).l4 = s.l4 := rfl
@[simp] theorem withErr_l2 (e : BitVec 4) (s : State) : (withErr e s).l2 = s.l2 := rfl
@[simp] theorem withErr_dedKey (e : BitVec 4) (s : State) : (withErr e s).dedKey = s.dedKey := rfl
@[simp] theorem withErr_slotMap (e : BitVec 4) (s : State) : (withErr e s).slotMap = s.slotMap := rfl
@[simp] theorem withErr_palette (e : BitVec 4) (s : State) : (withErr e s).palette = s.palette := rfl
@[simp] theorem withErr_pixCache (e : BitVec 4) (s : State) : (withErr e s).pixCache = s.pixCache := rfl
@[simp] theorem withErr_qPhoto (e : BitVec 4) (s : State) : (withErr e s).qPhoto = s.qPhoto := rfl
@[simp] theorem withErr_hostIn (e : BitVec 4) (s : State) : (withErr e s).hostIn = s.hostIn := rfl
@[simp] theorem withErr_rdata (e : BitVec 4) (s : State) : (withErr e s).rdata = s.rdata := rfl

@[simp] theorem beginRun_phase (s : State) : (beginRun s).phase = if 1 ≤ (s.width * s.height).toNat then .fill else .filled := rfl
@[simp] theorem beginRun_err (s : State) : (beginRun s).err = s.err := rfl
@[simp] theorem beginRun_width (s : State) : (beginRun s).width = s.width := rfl
@[simp] theorem beginRun_height (s : State) : (beginRun s).height = s.height := rfl
@[simp] theorem beginRun_runW (s : State) : (beginRun s).runW = s.width := rfl
@[simp] theorem beginRun_runH (s : State) : (beginRun s).runH = s.height := rfl
@[simp] theorem beginRun_npix (s : State) : (beginRun s).npix = s.width * s.height := rfl
@[simp] theorem beginRun_pixIdx (s : State) : (beginRun s).pixIdx = 0 := rfl
@[simp] theorem beginRun_l4 (s : State) : (beginRun s).l4 = [] := rfl
@[simp] theorem beginRun_l2 (s : State) : (beginRun s).l2 = [] := rfl
@[simp] theorem beginRun_dedKey (s : State) : (beginRun s).dedKey = [] := rfl
@[simp] theorem beginRun_slotMap (s : State) : (beginRun s).slotMap = [] := rfl
@[simp] theorem beginRun_palette (s : State) : (beginRun s).palette = [] := rfl
@[simp] theorem beginRun_pixCache (s : State) : (beginRun s).pixCache = s.pixCache := rfl
@[simp] theorem beginRun_qPhoto (s : State) : (beginRun s).qPhoto = s.qPhoto := rfl
@[simp] theorem beginRun_hostIn (s : State) : (beginRun s).hostIn = s.hostIn := rfl
@[simp] theorem beginRun_rdata (s : State) : (beginRun s).rdata = s.rdata := rfl

end Sys2Proof.Machine
end

