-- ==== Sys2Proof/Laws/Tables.lean ====
section
/-! SUPPORT. The laws of tables and RAMs: a read after a write, the canonical form kept by every write, and equal
reads make equal canonical tables. -/

namespace Sys2Proof.Machine

section
variable {α : Type} (d : α)

@[simp] theorem readEntry_nil (i : Nat) : readEntry d [] i = d := rfl

theorem readEntry_eraseEntry (t : Table α) (i j : Nat) :
    readEntry d (eraseEntry i t) j = if j = i then d else readEntry d t j := by
  induction t with
  | nil => simp [eraseEntry]
  | cons e t ih =>
    obtain ⟨k, w⟩ := e
    simp only [eraseEntry, List.filter_cons] at ih ⊢
    by_cases hk : k = i
    · subst hk
      by_cases hj : j = k
      · simpa [hj] using ih
      · simpa [readEntry, hj, Ne.symm hj] using ih
    · by_cases hj : k = j
      · subst hj; simp [readEntry, hk]
      · simpa [readEntry, hk, hj] using ih

theorem readEntry_insertEntry (t : Table α) (i j : Nat) (v : α) :
    readEntry d (insertEntry i v t) j = if j = i then v else readEntry d t j := by
  induction t with
  | nil => simp [insertEntry, readEntry, eq_comm]
  | cons e t ih =>
    obtain ⟨k, w⟩ := e
    by_cases h1 : i < k
    · by_cases h : j = i
      · simp [insertEntry, readEntry, h1, h]
      · simp [insertEntry, readEntry, h1, h, Ne.symm h]
    · by_cases h2 : i = k
      · subst h2
        by_cases h : j = i
        · simp [insertEntry, readEntry, h]
        · simp [insertEntry, readEntry, h, Ne.symm h]
      · by_cases h : k = j
        · subst h; simp [insertEntry, readEntry, h1, h2, Ne.symm h2]
        · simpa [insertEntry, readEntry, h1, h2, h] using ih

variable [DecidableEq α]

theorem readEntry_writeEntry (t : Table α) (i j : Nat) (v : α) :
    readEntry d (writeEntry d t i v) j = if j = i then v else readEntry d t j := by
  by_cases h : v = d
  · simp [writeEntry, h, readEntry_eraseEntry]
  · simp [writeEntry, h, readEntry_insertEntry]

@[simp] theorem readEntry_writeEntry_same (t : Table α) (i : Nat) (v : α) :
    readEntry d (writeEntry d t i v) i = v := by simp [readEntry_writeEntry]

theorem readEntry_writeEntry_other (t : Table α) {i j : Nat} (v : α) (h : j ≠ i) :
    readEntry d (writeEntry d t i v) j = readEntry d t j := by simp [readEntry_writeEntry, h]

omit [DecidableEq α] in
theorem mem_insertEntry {t : Table α} {i : Nat} {v : α} {e : Nat × α} (h : e ∈ insertEntry i v t) :
    e = (i, v) ∨ e ∈ t := by
  induction t with
  | nil => simpa [insertEntry] using h
  | cons x t ih =>
    obtain ⟨k, w⟩ := x
    simp only [insertEntry] at h
    split at h
    · simpa using h
    · split at h
      · simp only [List.mem_cons] at h ⊢; tauto
      · simp only [List.mem_cons] at h ⊢
        rcases h with h | h
        · tauto
        · rcases ih h with h | h <;> tauto

omit [DecidableEq α] in
theorem pairwise_insertEntry {t : Table α} (i : Nat) (v : α) (h : t.Pairwise fun a b => a.1 < b.1) :
    (insertEntry i v t).Pairwise fun a b => a.1 < b.1 := by
  induction t with
  | nil => simp [insertEntry]
  | cons x t ih =>
    obtain ⟨k, w⟩ := x
    rw [List.pairwise_cons] at h
    simp only [insertEntry]
    split
    · rename_i hik
      refine List.pairwise_cons.2 ⟨?_, List.pairwise_cons.2 h⟩
      intro b hb
      rcases List.mem_cons.1 hb with rfl | hb
      · exact hik
      · exact lt_trans hik (h.1 b hb)
    · split
      · rename_i hik
        subst hik
        exact List.pairwise_cons.2 h
      · refine List.pairwise_cons.2 ⟨?_, ih h.2⟩
        intro b hb
        rcases mem_insertEntry hb with rfl | hb
        · show k < i; omega
        · exact h.1 b hb

omit [DecidableEq α] in
theorem Memory.wf_nil (n : Nat) : Memory.wf d n ([] : Table α) := ⟨List.Pairwise.nil, by simp⟩

theorem Memory.wf_writeEntry {n : Nat} {t : Table α} (h : Memory.wf d n t) {i : Nat} (hi : i < n) (v : α) :
    Memory.wf d n (writeEntry d t i v) := by
  by_cases hv : v = d
  · simp only [writeEntry, hv, if_true, eraseEntry]
    exact ⟨h.1.filter _, fun e he => h.2 e (List.mem_filter.1 he).1⟩
  · simp only [writeEntry, hv, if_false]
    refine ⟨pairwise_insertEntry i v h.1, fun e he => ?_⟩
    rcases mem_insertEntry he with rfl | he
    · exact ⟨hi, hv⟩
    · exact h.2 e he

omit [DecidableEq α] in
theorem readEntry_of_forall_ne {t : Table α} {i : Nat} (h : ∀ e ∈ t, e.1 ≠ i) : readEntry d t i = d := by
  induction t with
  | nil => rfl
  | cons x t ih =>
    obtain ⟨k, w⟩ := x
    have hk : k ≠ i := h (k, w) (by simp)
    simpa [readEntry, hk] using ih fun e he => h e (by simp [he])

omit [DecidableEq α] in
/-- An entry that does not exist is not listed. -/
theorem Memory.wf.readEntry_ge {n : Nat} {t : Table α} (h : Memory.wf d n t) {i : Nat} (hi : n ≤ i) :
    readEntry d t i = d :=
  readEntry_of_forall_ne d fun e he => by have := (h.2 e he).1; omega

omit [DecidableEq α] in
/-- The canonical form is unique: equal reads, equal data. -/
theorem Memory.wf.ext {n m : Nat} : ∀ {t u : Table α}, Memory.wf d n t → Memory.wf d m u →
    (∀ i, readEntry d t i = readEntry d u i) → t = u
  | [], [], _, _, _ => rfl
  | [], (k, w) :: u, _, hu, h => absurd ((h k).symm.trans rfl) (by simpa [readEntry] using (hu.2 (k, w) (by simp)).2)
  | (k, w) :: t, [], ht, _, h => absurd ((h k).trans rfl) (by simpa [readEntry] using (ht.2 (k, w) (by simp)).2)
  | (k, w) :: t, (k', w') :: u, ht, hu, h => by
    have htk := List.pairwise_cons.1 ht.1
    have huk := List.pairwise_cons.1 hu.1
    have hw := (ht.2 (k, w) (by simp)).2
    have hw' := (hu.2 (k', w') (by simp)).2
    have hkk : k = k' := by
      rcases lt_trichotomy k k' with hlt | heq | hgt
      · have := h k
        rw [show readEntry d ((k, w) :: t) k = w by simp [readEntry],
          readEntry_of_forall_ne d (t := (k', w') :: u) (i := k)] at this
        · exact absurd this hw
        · intro e he
          rcases List.mem_cons.1 he with rfl | he
          · exact (ne_of_gt hlt)
          · have := huk.1 e he; simp only at this; omega
      · exact heq
      · have := h k'
        rw [show readEntry d ((k', w') :: u) k' = w' by simp [readEntry],
          readEntry_of_forall_ne d (t := (k, w) :: t) (i := k')] at this
        · exact absurd this.symm hw'
        · intro e he
          rcases List.mem_cons.1 he with rfl | he
          · exact (ne_of_gt hgt)
          · have := htk.1 e he; simp only at this; omega
    subst hkk
    have hww : w = w' := by simpa [readEntry] using h k
    subst hww
    have hrest : t = u := by
      refine Memory.wf.ext (n := n) (m := m) ⟨htk.2, fun e he => ht.2 e (by simp [he])⟩
        ⟨huk.2, fun e he => hu.2 e (by simp [he])⟩ fun i => ?_
      by_cases hi : k = i
      · subst hi
        rw [readEntry_of_forall_ne d fun e he => ne_of_gt (htk.1 e he),
          readEntry_of_forall_ne d fun e he => ne_of_gt (huk.1 e he)]
      · simpa [readEntry, hi] using h i
    rw [hrest]

end

/-- One accumulation changes the bucket of its key and no other (R111, R131). -/
theorem readBucket_accumulate (t : Table Bucket) (k j : Nat) (px : Pixel) :
    readBucket (accumulate t k px) j = if j = k then addPixel px (readBucket t k) else readBucket t j := by
  simp [readBucket, accumulate, readEntry_writeEntry]

theorem Memory.wf_accumulate {n : Nat} {t : Table Bucket} (h : Memory.wf Bucket.zero n t) {k : Nat} (hk : k < n)
    (px : Pixel) : Memory.wf Bucket.zero n (accumulate t k px) :=
  Memory.wf_writeEntry Bucket.zero h hk _

theorem readColour_writeColour (t : Table Colour) (i j : Nat) (c : Colour) :
    readColour (writeColour t i c) j = if j = i then c else readColour t j := by
  simp [readColour, writeColour, readEntry_writeEntry]

theorem cacheRead_of_lt {lim : Config.Limits} {n : Nat} (h : n < lim.maxN) (t : Table Pixel) :
    cacheRead lim t n = .ok (cachedPixel t n) := if_pos h

theorem cacheWrite_of_lt {lim : Config.Limits} {n : Nat} (h : n < lim.maxN) (t : Table Pixel) (px : Pixel) :
    cacheWrite lim t n px = .ok (writeEntry 0 t n px) := if_pos h

theorem photoRead_of_lt {lim : Config.Limits} {i : Nat} (h : i < lim.maxN) (t : Table Byte) :
    photoRead lim t i = .ok (photoByte t i) := if_pos h

theorem photoWrite_of_lt {lim : Config.Limits} {i : Nat} (h : i < lim.maxN) (t : Table Byte) (v : Byte) :
    photoWrite lim t i v = .ok (writeEntry 0 t i v) := if_pos h

theorem cachedPixel_write (t : Table Pixel) (n m : Nat) (px : Pixel) :
    cachedPixel (writeEntry 0 t n px) m = if m = n then px else cachedPixel t m := readEntry_writeEntry ..

theorem photoByte_write (t : Table Byte) (n m : Nat) (v : Byte) :
    photoByte (writeEntry 0 t n v) m = if m = n then v else photoByte t m := readEntry_writeEntry ..

end Sys2Proof.Machine
end

