-- ==== Sys2Proof/Laws/Exec.lean ====
section
/-! SUPPORT. Everything each instruction can do when it answers a next state: one inversion lemma an instruction, one
for all reads; and what a step can do. -/

namespace Sys2Proof.Machine

theorem execNop_next {s t : State} (h : exec .nop s = .next t) : t = s := by injection h with h; exact h.symm

theorem execAbort_next {s t : State} (h : exec .abort s = .next t) : t = { s with phase := .idle } := by
  injection h with h; exact h.symm

theorem execSetw_next {v : Word} {s t : State} (h : exec (.setw v) s = .next t) : t = { s with width := v } := by
  injection h with h; exact h.symm

theorem execSeth_next {v : Word} {s t : State} (h : exec (.seth v) s = .next t) : t = { s with height := v } := by
  injection h with h; exact h.symm

theorem execClrerr_next {m : BitVec 4} {s t : State} (h : exec (.clrerr m) s = .next t) :
    t = { s with err := clearFlags m s.err } := by injection h with h; exact h.symm

theorem execStart_next {s t : State} (h : exec .start s = .next t) :
    ((s.phase = .idle ∨ s.phase = .done) ∧
      (((Config.limits.maxW < s.width.toNat ∨ Config.limits.maxH < s.height.toNat) ∧ t = raiseErr .size s) ∨
        (s.width.toNat ≤ Config.limits.maxW ∧ s.height.toNat ≤ Config.limits.maxH ∧ t = beginRun s))) ∨
    ((s.phase ≠ .idle ∧ s.phase ≠ .done) ∧ t = raiseErr .seq s) := by
  rcases inPhases_next h with ⟨hp, h⟩ | ⟨hp, h⟩
  · refine .inl ⟨by simpa using hp, ?_⟩
    unfold startChecked at h
    split at h
    · rename_i hs
      injection h with h
      exact .inl ⟨hs, h.symm⟩
    · rename_i hs
      injection h with h
      exact .inr ⟨by omega, by omega, h.symm⟩
  · exact .inr ⟨by simpa using hp, h⟩

theorem execPush_next {px : Pixel} {s t : State} (h : exec (.push px) s = .next t) :
    (s.phase = .fill ∧ s.pixIdx.toNat < Config.limits.maxN ∧
      t = { s with
        l4 := accumulate s.l4 (k4 px).toNat px
        pixCache := writeEntry 0 s.pixCache s.pixIdx.toNat px
        pixIdx := s.pixIdx + 1
        phase := phaseAfterPush s }) ∨
    (s.phase ≠ .fill ∧ t = raiseErr .seq s) := by
  rcases inPhases_next h with ⟨hp, h⟩ | ⟨hp, h⟩
  · refine .inl ⟨by simpa using hp, ?_⟩
    by_cases hi : s.pixIdx.toNat < Config.limits.maxN
    · rw [pushPixel, cacheWrite_of_lt hi] at h
      injection h with h
      exact ⟨hi, h.symm⟩
    · rw [pushPixel, cacheWrite, if_neg hi] at h
      cases h
  · exact .inr ⟨by simpa using hp, h⟩

theorem execRank_next {s t : State} (h : exec .rank s = .next t) :
    (s.phase = .filled ∧ t = { s with
      dedKey := dedKeyTable (dedicatedKeys s.l4), slotMap := slotMapTable (dedicatedKeys s.l4), phase := .ranked }) ∨
    (s.phase ≠ .filled ∧ t = raiseErr .seq s) := by
  rcases inPhases_next h with ⟨hp, h⟩ | ⟨hp, h⟩
  · injection h with h
    exact .inl ⟨by simpa using hp, h.symm⟩
  · exact .inr ⟨by simpa using hp, h⟩

theorem execRefine_next {s t : State} (h : exec .refine s = .next t) :
    (s.phase = .ranked ∧ ∃ l2, refineWalk Config.limits s s.npix.toNat = .ok l2 ∧
      t = { s with l2 := l2, phase := .refined }) ∨
    (s.phase ≠ .ranked ∧ t = raiseErr .seq s) := by
  rcases inPhases_next h with ⟨hp, h⟩ | ⟨hp, h⟩
  · refine .inl ⟨by simpa using hp, ?_⟩
    unfold refinePass at h
    split at h
    · rename_i l2 hl
      injection h with h
      exact ⟨l2, hl, h.symm⟩
    · cases h
  · exact .inr ⟨by simpa using hp, h⟩

theorem execBuild_next {s t : State} (h : exec .build s = .next t) :
    (s.phase = .refined ∧ t = { s with palette := sharedRange s (dedicatedRange s s.palette), phase := .built }) ∨
    (s.phase ≠ .refined ∧ t = raiseErr .seq s) := by
  rcases inPhases_next h with ⟨hp, h⟩ | ⟨hp, h⟩
  · injection h with h
    exact .inl ⟨by simpa using hp, h.symm⟩
  · exact .inr ⟨by simpa using hp, h⟩

theorem execEncode_next {s t : State} (h : exec .encode s = .next t) :
    (s.phase = .built ∧ ∃ photo, encodeWalk Config.limits s s.npix.toNat = .ok photo ∧
      t = { s with qPhoto := photo, phase := .done }) ∨
    (s.phase ≠ .built ∧ t = raiseErr .seq s) := by
  rcases inPhases_next h with ⟨hp, h⟩ | ⟨hp, h⟩
  · refine .inl ⟨by simpa using hp, ?_⟩
    unfold encodePass at h
    split at h
    · rename_i photo hl
      injection h with h
      exact ⟨photo, hl, h.symm⟩
    · cases h
  · exact .inr ⟨by simpa using hp, h⟩

/-- Which register reads answer a word. -/
theorem registerWord_eq_none_iff (lim : Config.Limits) (a : BitVec 4) (s : State) :
    registerWord lim a s = none ↔ registerMapped a = false := by
  have := a.isLt
  rcases (by omega : a.toNat = 0 ∨ a.toNat = 1 ∨ a.toNat = 2 ∨ a.toNat = 3 ∨ a.toNat = 4 ∨ a.toNat = 5 ∨ a.toNat = 6 ∨
    a.toNat = 7 ∨ a.toNat = 8 ∨ a.toNat = 9 ∨ a.toNat = 10 ∨ a.toNat = 11 ∨ a.toNat = 12 ∨ a.toNat = 13 ∨
    a.toNat = 14 ∨ a.toNat = 15) with h | h | h | h | h | h | h | h | h | h | h | h | h | h | h | h <;>
    simp [registerWord, h]

/-- A read answers data and changes nothing, or names an unmapped location and raises `ADDR`. -/
theorem exec_read_next {i : Instr} {s t : State} (hi : i.isRead = true) (h : exec i s = .next t) :
    (i.wellFormed = true ∧ ∃ v, t = respond v s) ∨ (i.wellFormed = false ∧ t = raiseErrRead .addr s) := by
  cases i with
  | rdreg a =>
    simp only [exec, execRdreg, readRegisterOn] at h
    split at h
    · rename_i v hv
      injection h with h
      refine .inl ⟨?_, v, h.symm⟩
      by_contra hw
      rw [(registerWord_eq_none_iff _ _ _).2 (by simpa [Instr.wellFormed] using hw)] at hv
      cases hv
    · rename_i hv
      injection h with h
      exact .inr ⟨(registerWord_eq_none_iff _ _ _).1 hv, h.symm⟩
  | rdpal slot =>
    simp only [exec, execRdpal] at h
    split_ifs at h with h1 h2 <;> injection h with h
    · exact .inr ⟨by simpa [Instr.wellFormed] using h1, h.symm⟩
    · exact .inl ⟨by simpa [Instr.wellFormed] using h1, _, h.symm⟩
    · exact .inl ⟨by simpa [Instr.wellFormed] using h1, _, h.symm⟩
  | rdphoto j =>
    simp only [exec, execRdphoto, readPhotoOn] at h
    split_ifs at h
    · split at h
      · injection h with h
        exact .inl ⟨rfl, _, h.symm⟩
      · cases h
    · injection h with h
      exact .inl ⟨rfl, _, h.symm⟩
  | rdded _ => injection h with h; exact .inl ⟨rfl, _, h.symm⟩
  | rdl2 _ _ => injection h with h; exact .inl ⟨rfl, _, h.symm⟩
  | rdslot _ => injection h with h; exact .inl ⟨rfl, _, h.symm⟩
  | rdl4 _ _ => injection h with h; exact .inl ⟨rfl, _, h.symm⟩
  | nop => cases hi
  | start => cases hi
  | rank => cases hi
  | refine => cases hi
  | build => cases hi
  | encode => cases hi
  | abort => cases hi
  | push _ => cases hi
  | setw _ => cases hi
  | seth _ => cases hi
  | clrerr _ => cases hi

/-- What a step can do: wait, reset, run an instruction, or turn a word away. -/
theorem step_next {s t : State} (h : step s = .next t) :
    (s.hostIn = [] ∧ t = s) ∨
    (∃ rest, s.hostIn = .reset :: rest ∧ t = { State.reset with hostIn := rest }) ∨
    (∃ w rest i, s.hostIn = .transaction w :: rest ∧ decode w = .ok i ∧
      exec i { s with hostIn := rest, rdata := none } = .next t) ∨
    (∃ w rest r, s.hostIn = .transaction w :: rest ∧ decode w = .error r ∧
      t = rejectTransaction r { s with hostIn := rest, rdata := none }) := by
  rcases hi : s.hostIn with _ | ⟨x, rest⟩
  · rw [step, admitInput_empty hi] at h
    injection h with h
    exact .inl ⟨rfl, h.symm⟩
  · rw [step, admitInput_cons hi] at h
    cases x with
    | reset =>
      injection h with h
      exact .inr (.inl ⟨rest, rfl, h.symm⟩)
    | transaction w =>
      simp only at h
      split at h
      · rename_i i hd
        exact .inr (.inr (.inl ⟨w, rest, i, rfl, hd, h⟩))
      · rename_i r hd
        injection h with h
        exact .inr (.inr (.inr ⟨w, rest, r, rfl, hd, h.symm⟩))

end Sys2Proof.Machine
end

