-- ==== Sys2Proof/Laws/Limits.lean ====
section
/-! SUPPORT. The parameters of the instance are legal, and every legal pair is the nearest legal pair of itself. -/

namespace Sys2Proof.Config

theorem nearestLegal_legal (w h : Nat) : (nearestLegal w h).legal := by
  have hw : 1 ≤ min (max w 1) 65535 ∧ min (max w 1) 65535 ≤ 65535 := by omega
  generalize hm : min (max w 1) 65535 = mw at hw
  have hq : 1 ≤ 16777216 / mw := (Nat.one_le_div_iff (by omega)).2 (by omega)
  have hp : mw * (16777216 / mw) ≤ 16777216 := Nat.mul_div_le _ _
  simp only [Limits.legal, Limits.maxN, nearestLegal, hm]
  refine ⟨hw, by omega, le_trans (Nat.mul_le_mul_left mw ?_) hp⟩
  omega

theorem limits_legal : limits.legal := nearestLegal_legal _ _

theorem nearestLegal_of_legal (l : Limits) (h : l.legal) : nearestLegal l.maxW l.maxH = l := by
  obtain ⟨⟨h1, h2⟩, ⟨h3, h4⟩, h5⟩ := h
  have hw : min (max l.maxW 1) 65535 = l.maxW := by omega
  have hq : l.maxH ≤ 16777216 / l.maxW :=
    (Nat.le_div_iff_mul_le (by omega)).2 (by rw [Nat.mul_comm]; exact h5)
  have hh : min (max l.maxH 1) (min 65535 (16777216 / l.maxW)) = l.maxH := by omega
  simp only [nearestLegal, hw, hh]

theorem maxN_pos : 0 < limits.maxN :=
  Nat.mul_pos limits_legal.1.1 limits_legal.2.1.1

theorem maxN_le : limits.maxN ≤ 16777216 := limits_legal.2.2

end Sys2Proof.Config
end

