-- ==== Sys2Proof/Laws/PerInstr.lean ====
section
/-! SUPPORT. Statements made for every instruction, one lemma a constructor. RowWord: the word of an instruction lies in
the instruction's row of spec/opcode_table.json. -/

namespace Sys2Proof.Laws.RowWord

/-- The encoder's word selects the instruction's row: `t and mask = match` (R60). -/
def Statement (i : Instr) : Prop := encode i &&& rowMask i = rowMatch i

theorem of_upper_bits {t mask m : Txn} (lo : Nat) (hmask : mask = BitVec.allOnes 65 <<< lo) (hm : m &&& mask = m)
    (h : t.extractLsb' lo (65 - lo) = m.extractLsb' lo (65 - lo)) : t &&& mask = m := by
  subst hmask
  exact (and_mask_eq_iff t m lo hm).2 h

theorem of_write {addr data : Word} {m : Txn} (hm : m &&& 0x1ffffffff00000000#65 = m)
    (h : (BitVec.ofBool true ++ addr : BitVec 33) = m.extractLsb' 32 33) :
    makeTxn true addr data &&& 0x1ffffffff00000000#65 = m :=
  of_upper_bits 32 (by decide) hm ((extract_high (BitVec.ofBool true ++ addr) data).trans h)

/-- A read whose upper `32 - lo` address bits are the window's. -/
theorem of_read {addr : Word} {mask m : Txn} (lo k : Nat) (hlo : lo + k = 32)
    (hmask : mask = BitVec.allOnes 65 <<< (32 + lo)) (hm : m &&& mask = m)
    (h : (BitVec.ofBool false ++ addr.extractLsb' lo k).setWidth 33 = m.extractLsb' (32 + lo) 33) :
    readTxn addr &&& mask = m := by
  refine of_upper_bits (32 + lo) hmask hm ?_
  have e1 : (readTxn addr).extractLsb' (32 + lo) (1 + k) = BitVec.ofBool false ++ addr.extractLsb' lo k :=
    (extract_above (BitVec.ofBool false ++ addr) 0#32 lo (1 + k)).trans (extract_across _ _ _ _ hlo)
  have e2 : 65 - (32 + lo) = 1 + k := by omega
  rw [e2, e1]
  ext i hi
  have := congrArg (fun x => x.getLsbD i) h
  simpa [show i < 33 by omega, show i < 1 + k by omega] using this

theorem nop : Statement .nop := rfl
theorem start : Statement .start := rfl
theorem rank : Statement .rank := rfl
theorem refine : Statement .refine := rfl
theorem build : Statement .build := rfl
theorem encode : Statement .encode := rfl
theorem abort : Statement .abort := rfl
theorem push (px : Pixel) : Statement (.push px) := of_write (by simp only [rowMatch]; decide) (by simp only [rowMatch]; decide)
theorem setw (v : Word) : Statement (.setw v) := of_write (by simp only [rowMatch]; decide) (by simp only [rowMatch]; decide)
theorem seth (v : Word) : Statement (.seth v) := of_write (by simp only [rowMatch]; decide) (by simp only [rowMatch]; decide)
theorem clrerr (m : BitVec 4) : Statement (.clrerr m) := of_write (by simp only [rowMatch]; decide) (by simp only [rowMatch]; decide)

theorem rdreg (a : BitVec 4) : Statement (.rdreg a) :=
  of_read 4 28 rfl (by simp only [rowMask]; decide) (by simp only [rowMatch, rowMask]; decide)
    (by rw [extract_high]; simp only [rowMatch]; decide)

theorem rdpal (s : BitVec 8) : Statement (.rdpal s) :=
  of_read 8 24 rfl (by simp only [rowMask]; decide) (by simp only [rowMatch, rowMask]; decide)
    (by rw [extract_high]; simp only [rowMatch]; decide)

theorem rdded (s : BitVec 7) : Statement (.rdded s) :=
  of_read 7 25 rfl (by simp only [rowMask]; decide) (by simp only [rowMatch, rowMask]; decide)
    (by rw [extract_high]; simp only [rowMatch]; decide)

theorem rdl2 (j : FineKey) (f : BucketField) : Statement (.rdl2 j f) :=
  of_read 8 24 rfl (by simp only [rowMask]; decide) (by simp only [rowMatch, rowMask]; decide)
   (by rw [(extract_above (3#24 ++ j) (fieldCode f) 6 24).trans (extract_high ..)]; simp only [rowMatch]; decide)

theorem rdslot (k : CoarseKey) : Statement (.rdslot k) :=
  of_read 12 20 rfl (by simp only [rowMask]; decide) (by simp only [rowMatch, rowMask]; decide)
    (by rw [extract_high]; simp only [rowMatch]; decide)

theorem rdl4 (k : CoarseKey) (f : BucketField) : Statement (.rdl4 k f) :=
  of_read 14 18 rfl (by simp only [rowMask]; decide) (by simp only [rowMatch, rowMask]; decide)
   (by rw [(extract_above (1#18 ++ k) (fieldCode f) 12 18).trans (extract_high ..)]; simp only [rowMatch]; decide)

theorem rdphoto (i : BitVec 24) : Statement (.rdphoto i) :=
  of_read 24 8 rfl (by simp only [rowMask]; decide) (by simp only [rowMatch, rowMask]; decide)
    (by rw [extract_high]; simp only [rowMatch]; decide)

end Sys2Proof.Laws.RowWord
end

