-- ==== Sys2Proof/Laws/Ranking.lean ====
section
/-! SUPPORT. The sort of `RANK` computes the ranking order as R121 counts it: the sorted list holds every bucket once,
in order, and the place of a key in it is its rank. What the two tables then read as. -/

namespace Sys2Proof.Machine

theorem pairBefore_iff (a b : Nat × Nat) : pairBefore a b = true ↔ b.2 < a.2 ∨ (a.2 = b.2 ∧ a.1 < b.1) := by
  simp [pairBefore]

theorem pairBefore_trans {a b c : Nat × Nat} (h : pairBefore a b = true) (h' : pairBefore b c = true) :
    pairBefore a c = true := by
  rw [pairBefore_iff] at *; omega

theorem pairBefore_asymm {a b : Nat × Nat} (h : pairBefore a b = true) : pairBefore b a = false := by
  rw [← Bool.not_eq_true, pairBefore_iff]; rw [pairBefore_iff] at h; omega

theorem pairBefore_of_not {a b : Nat × Nat} (h : ¬ pairBefore b a = true) (hne : a.1 ≠ b.1) :
    pairBefore a b = true := by
  rw [pairBefore_iff] at *; omega

theorem mergeHead_perm (x : Nat × Nat) (xs : List (Nat × Nat)) (tail : List (Nat × Nat) → List (Nat × Nat))
    (ih : ∀ ys, (tail ys).Perm (xs ++ ys)) : ∀ ys, (mergeHead x tail ys).Perm (x :: xs ++ ys)
  | [] => (ih []).cons x
  | y :: ys => by
    simp only [mergeHead]
    split
    · refine ((mergeHead_perm x xs tail ih ys).cons y).trans ?_
      simpa using (List.perm_middle (l₁ := x :: xs) (l₂ := ys) (a := y)).symm
    · exact (ih (y :: ys)).cons x

theorem mergeRanked_perm : ∀ xs ys, (mergeRanked xs ys).Perm (xs ++ ys)
  | [], ys => .refl ys
  | x :: xs, ys => mergeHead_perm x xs _ (mergeRanked_perm xs) ys

theorem mergeHead_pairwise (x : Nat × Nat) (xs : List (Nat × Nat)) (tail : List (Nat × Nat) → List (Nat × Nat))
    (perm : ∀ ys, (tail ys).Perm (xs ++ ys))
    (ih : ∀ ys, ys.Pairwise (pairBefore · ·) → (∀ a ∈ xs, ∀ b ∈ ys, a.1 ≠ b.1) → (tail ys).Pairwise (pairBefore · ·))
    (hx : ∀ a ∈ xs, pairBefore x a = true) :
    ∀ ys, ys.Pairwise (pairBefore · ·) → (∀ a ∈ x :: xs, ∀ b ∈ ys, a.1 ≠ b.1) →
      (mergeHead x tail ys).Pairwise (pairBefore · ·)
  | [], hy, hne => by
    refine List.pairwise_cons.2 ⟨fun a ha => ?_, ih [] hy (by simp)⟩
    exact hx a (by simpa using (perm []).mem_iff.1 ha)
  | y :: ys, hy, hne => by
    obtain ⟨hy1, hy2⟩ := List.pairwise_cons.1 hy
    simp only [mergeHead]
    split
    · rename_i hyx
      refine List.pairwise_cons.2 ⟨fun a ha => ?_, mergeHead_pairwise x xs tail perm ih hx ys hy2
        fun a ha b hb => hne a ha b (by simp [hb])⟩
      have := (mergeHead_perm x xs tail perm ys).mem_iff.1 ha
      simp only [List.cons_append, List.mem_cons, List.mem_append] at this
      rcases this with rfl | h | h
      · exact hyx
      · exact pairBefore_trans hyx (hx a h)
      · exact hy1 a h
    · rename_i hyx
      have hxy := pairBefore_of_not hyx (hne x (by simp) y (by simp))
      refine List.pairwise_cons.2 ⟨fun a ha => ?_, ih (y :: ys) hy fun a ha => hne a (by simp [ha])⟩
      have := (perm (y :: ys)).mem_iff.1 ha
      simp only [List.mem_cons, List.mem_append] at this
      rcases this with h | rfl | h
      · exact hx a h
      · exact hxy
      · exact pairBefore_trans hxy (hy1 a h)

theorem mergeRanked_pairwise : ∀ xs ys, xs.Pairwise (pairBefore · ·) → ys.Pairwise (pairBefore · ·) →
    (∀ a ∈ xs, ∀ b ∈ ys, a.1 ≠ b.1) → (mergeRanked xs ys).Pairwise (pairBefore · ·)
  | [], _, _, hy, _ => hy
  | x :: xs, ys, hx, hy, hne =>
    mergeHead_pairwise x xs _ (mergeRanked_perm xs)
      (fun ys hy hne => mergeRanked_pairwise xs ys (List.pairwise_cons.1 hx).2 hy hne)
      (List.pairwise_cons.1 hx).1 ys hy hne

/-- The sort loses no bucket and invents none. -/
theorem rankedFrom_perm (l4 : Table Bucket) : ∀ depth first,
    (rankedFrom l4 depth first).Perm ((List.range' first (2 ^ depth)).map fun k => (k, countOf l4 k))
  | 0, first => .refl _
  | depth + 1, first => by
    refine (mergeRanked_perm _ _).trans (((rankedFrom_perm l4 depth first).append
      (rankedFrom_perm l4 depth (first + 2 ^ depth))).trans ?_)
    rw [← List.map_append, List.range'_append_1, Nat.pow_succ, Nat.mul_two]

theorem rankedFrom_pairwise (l4 : Table Bucket) : ∀ depth first,
    (rankedFrom l4 depth first).Pairwise (pairBefore · ·)
  | 0, _ => List.pairwise_singleton _ _
  | depth + 1, first => by
    refine mergeRanked_pairwise _ _ (rankedFrom_pairwise l4 depth first) (rankedFrom_pairwise l4 depth _) ?_
    intro a ha b hb
    replace ha := (rankedFrom_perm l4 depth first).mem_iff.1 ha
    replace hb := (rankedFrom_perm l4 depth _).mem_iff.1 hb
    simp only [List.mem_map, List.mem_range'_1] at ha hb
    obtain ⟨i, hi, rfl⟩ := ha
    obtain ⟨j, hj, rfl⟩ := hb
    simp only
    omega

theorem ranking_perm (l4 : Table Bucket) :
    (ranking l4).Perm ((List.range 4096).map fun k => (k, countOf l4 k)) := by
  rw [ranking, List.range_eq_range']
  exact rankedFrom_perm l4 12 0

theorem ranking_pairwise (l4 : Table Bucket) : (ranking l4).Pairwise (pairBefore · ·) := by
  rw [ranking]; exact rankedFrom_pairwise l4 12 0

theorem ranking_length (l4 : Table Bucket) : (ranking l4).length = 4096 := by
  simpa using (ranking_perm l4).length_eq

/-- In a sorted list the number of members before a member is its place. -/
theorem countP_before_getElem : ∀ (l : List (Nat × Nat)), l.Pairwise (pairBefore · ·) → ∀ (i : Nat) (h : i < l.length),
    l.countP (fun a => pairBefore a l[i]) = i
  | x :: xs, hp, 0, _ => by
    have hp := List.pairwise_cons.1 hp
    rw [List.countP_eq_zero]
    intro a ha
    rcases List.mem_cons.1 ha with rfl | ha
    · simp [pairBefore]
    · simp [pairBefore_asymm (hp.1 a ha)]
  | x :: xs, hp, i + 1, h => by
    have hp := List.pairwise_cons.1 hp
    have hi : i < xs.length := by simpa using h
    have hx := hp.1 xs[i] (List.getElem_mem hi)
    simp only [List.getElem_cons_succ, List.countP_cons, hx, if_true, countP_before_getElem xs hp.2 i hi]

theorem before_eq_pairBefore (l4 : Table Bucket) (a b : Nat) :
    before l4 a b = pairBefore (a, countOf l4 a) (b, countOf l4 b) := rfl

theorem rankOf_eq (l4 : Table Bucket) (k : Nat) :
    rankOf l4 k = (List.range 4096).countP fun a => before l4 a k := by
  unfold rankOf; rfl

/-- The place of a bucket in the sorted list is its rank (R121). -/
theorem rankOf_of_getElem (l4 : Table Bucket) {i : Nat} (h : i < (ranking l4).length) :
    (ranking l4)[i] = ((ranking l4)[i].1, countOf l4 (ranking l4)[i].1) ∧ (ranking l4)[i].1 < 4096 ∧
      rankOf l4 (ranking l4)[i].1 = i := by
  have hm := (ranking_perm l4).mem_iff.1 (List.getElem_mem h)
  simp only [List.mem_map, List.mem_range] at hm
  obtain ⟨k, hk, he⟩ := hm
  have hc := countP_before_getElem _ (ranking_pairwise l4) i h
  rw [(ranking_perm l4).countP_eq, List.countP_map] at hc
  rw [← he] at hc ⊢
  exact ⟨rfl, hk, (rankOf_eq l4 k).trans hc⟩

/-- Every key has a place, its rank. -/
theorem getElem_rankOf (l4 : Table Bucket) {k : Nat} (hk : k < 4096) :
    ∃ h : rankOf l4 k < (ranking l4).length, (ranking l4)[rankOf l4 k] = (k, countOf l4 k) := by
  have hm : (k, countOf l4 k) ∈ ranking l4 :=
    (ranking_perm l4).mem_iff.2 (List.mem_map.2 ⟨k, List.mem_range.2 hk, rfl⟩)
  obtain ⟨i, h, he⟩ := List.getElem_of_mem hm
  have := (rankOf_of_getElem l4 h).2.2
  rw [he] at this
  subst this
  exact ⟨h, he⟩

theorem rankOf_lt (l4 : Table Bucket) {k : Nat} (hk : k < 4096) : rankOf l4 k < 4096 := by
  obtain ⟨h, _⟩ := getElem_rankOf l4 hk
  rwa [ranking_length] at h

theorem rankOf_inj (l4 : Table Bucket) {a b : Nat} (ha : a < 4096) (hb : b < 4096)
    (h : rankOf l4 a = rankOf l4 b) : a = b := by
  obtain ⟨_, h1⟩ := getElem_rankOf l4 ha
  obtain ⟨_, h2⟩ := getElem_rankOf l4 hb
  simp only [h] at h1
  rw [h1] at h2
  exact congrArg Prod.fst h2

/-- `before` is the order of the ranks (R121). -/
theorem before_iff_rankOf_lt (l4 : Table Bucket) {a b : Nat} (ha : a < 4096) (hb : b < 4096) :
    before l4 a b = true ↔ rankOf l4 a < rankOf l4 b := by
  obtain ⟨h1, e1⟩ := getElem_rankOf l4 ha
  obtain ⟨h2, e2⟩ := getElem_rankOf l4 hb
  have hp := List.pairwise_iff_getElem.1 (ranking_pairwise l4)
  constructor
  · intro h
    by_contra hlt
    rcases Nat.lt_or_eq_of_le (Nat.le_of_not_lt hlt) with h' | h'
    · have := hp _ _ h2 h1 h'
      rw [e1, e2] at this
      rw [before_eq_pairBefore, pairBefore_asymm this] at h
      cases h
    · rw [rankOf_inj l4 hb ha h', before_eq_pairBefore] at h
      simp [pairBefore] at h
  · intro h
    have := hp _ _ h1 h2 h
    rwa [e1, e2] at this

theorem dedicatedKeys_length (l4 : Table Bucket) : (dedicatedKeys l4).length = 128 := by
  rw [dedicatedKeys, List.length_map, List.length_take, ranking_length]; rfl

/-- The key in place `i` is the key of rank `i`. -/
theorem dedicatedKeys_getElem (l4 : Table Bucket) {i : Nat} (h : i < (dedicatedKeys l4).length) :
    (dedicatedKeys l4)[i] < 4096 ∧ rankOf l4 (dedicatedKeys l4)[i] = i := by
  have hi : i < 128 := by rwa [dedicatedKeys_length] at h
  have := rankOf_of_getElem l4 (i := i) (by rw [ranking_length]; omega)
  simp only [dedicatedKeys, List.getElem_map, List.getElem_take]
  exact this.2

theorem dedicatedKeys_rankOf (l4 : Table Bucket) {k : Nat} (hk : k < 4096) (h : rankOf l4 k < 128) :
    (dedicatedKeys l4)[rankOf l4 k]'(by rw [dedicatedKeys_length]; exact h) = k := by
  obtain ⟨_, e⟩ := getElem_rankOf l4 hk
  simp [dedicatedKeys, e]

theorem dedicatedKeys_getElem? (l4 : Table Bucket) {k : Nat} (hk : k < 4096) (h : rankOf l4 k < 128) :
    (dedicatedKeys l4)[rankOf l4 k]? = some k :=
  List.getElem?_eq_some_iff.2 ⟨_, dedicatedKeys_rankOf l4 hk h⟩

theorem mem_dedicatedKeys (l4 : Table Bucket) (k : Nat) :
    k ∈ dedicatedKeys l4 ↔ k < 4096 ∧ rankOf l4 k < 128 := by
  constructor
  · intro h
    obtain ⟨i, hi, rfl⟩ := List.getElem_of_mem h
    have := dedicatedKeys_getElem l4 hi
    rw [dedicatedKeys_length] at hi
    omega
  · rintro ⟨hk, hr⟩
    rw [← dedicatedKeys_rankOf l4 hk hr]
    exact List.getElem_mem _

section
variable {α : Type} [DecidableEq α] (d : α)

theorem readEntry_writeEntries_of_not_mem : ∀ (es : List (Nat × α)) (t : Table α) (i : Nat),
    (∀ e ∈ es, e.1 ≠ i) → readEntry d (writeEntries d t es) i = readEntry d t i
  | [], _, _, _ => rfl
  | (k, v) :: es, t, i, h => by
    have hk : k ≠ i := h (k, v) (by simp)
    rw [writeEntries, readEntry_writeEntries_of_not_mem es _ i fun e he => h e (by simp [he])]
    exact readEntry_writeEntry_other d t v (Ne.symm hk)

theorem readEntry_writeEntries_of_mem : ∀ (es : List (Nat × α)) (t : Table α) {i : Nat} {v : α},
    es.Pairwise (fun a b => a.1 ≠ b.1) → (i, v) ∈ es → readEntry d (writeEntries d t es) i = v
  | (k, w) :: es, t, i, v, hp, hm => by
    obtain ⟨h1, h2⟩ := List.pairwise_cons.1 hp
    rw [writeEntries]
    rcases List.mem_cons.1 hm with h | h
    · injection h with hi hv
      subst hi hv
      rw [readEntry_writeEntries_of_not_mem d es _ i fun e he => Ne.symm (h1 e he)]
      exact readEntry_writeEntry_same d t i v
    · exact readEntry_writeEntries_of_mem es _ h2 h

theorem Memory.wf_writeEntries {n : Nat} : ∀ (es : List (Nat × α)) (t : Table α), Memory.wf d n t →
    (∀ e ∈ es, e.1 < n) → Memory.wf d n (writeEntries d t es)
  | [], _, h, _ => h
  | (k, v) :: es, t, h, he =>
    Memory.wf_writeEntries es _ (Memory.wf_writeEntry d h (he (k, v) (by simp)) v) fun e h' => he e (by simp [h'])

end

theorem dedicatedKeys_nodup (l4 : Table Bucket) : (dedicatedKeys l4).Nodup := by
  rw [List.nodup_iff_getElem?_ne_getElem?]
  intro i j hij hj h
  have hi : i < (dedicatedKeys l4).length := by omega
  rw [List.getElem?_eq_getElem hi, List.getElem?_eq_getElem hj, Option.some.injEq] at h
  have h1 := (dedicatedKeys_getElem l4 hi).2
  have h2 := (dedicatedKeys_getElem l4 hj).2
  rw [h] at h1
  omega

/-- `DED_KEY` after `RANK`: slot to key (R122). -/
theorem readKey_dedKeyTable (l4 : Table Bucket) {k : Nat} (hk : k < 4096) (h : rankOf l4 k < 128) :
    readKey (dedKeyTable (dedicatedKeys l4)) (rankOf l4 k) = BitVec.ofNat 12 k := by
  have e := dedicatedKeys_getElem? l4 hk h
  generalize rankOf l4 k = i at e
  refine readEntry_writeEntries_of_mem 0 _ _ ?_ ?_
  · rw [List.pairwise_map, List.pairwise_iff_getElem]
    intro i j hi hj hij
    simp only [List.getElem_zipIdx]
    omega
  · rw [List.mem_map]
    exact ⟨(k, i), List.mem_zipIdx_iff_getElem?.2 e, rfl⟩

/-- `SLOT_MAP` after `RANK`: key to slot (R122). -/
theorem readSlot_slotMapTable (l4 : Table Bucket) (k : CoarseKey) :
    readSlot (slotMapTable (dedicatedKeys l4)) k =
      if rankOf l4 k.toNat < 128 then ⟨true, BitVec.ofNat 7 (rankOf l4 k.toNat)⟩ else SlotEntry.zero := by
  have hk : k.toNat < 4096 := k.isLt
  split
  · rename_i h
    have e := dedicatedKeys_getElem? l4 hk h
    generalize rankOf l4 k.toNat = i at e
    refine readEntry_writeEntries_of_mem SlotEntry.zero _ _ ?_ ?_
    · rw [List.pairwise_map, List.pairwise_iff_getElem]
      intro m j hm hj hmj he
      simp only [List.getElem_zipIdx] at he
      simp only [List.length_zipIdx] at hm hj
      have h1 := (dedicatedKeys_getElem l4 hm).2
      have h2 := (dedicatedKeys_getElem l4 hj).2
      rw [he] at h1
      omega
    · rw [List.mem_map]
      exact ⟨(k.toNat, i), List.mem_zipIdx_iff_getElem?.2 e, rfl⟩
  · rename_i h
    refine (readEntry_writeEntries_of_not_mem SlotEntry.zero _ _ _ ?_).trans (readEntry_nil ..)
    intro e he hek
    obtain ⟨⟨a, j⟩, hm, rfl⟩ := List.mem_map.1 he
    have ha : a ∈ dedicatedKeys l4 := (List.mem_zipIdx' hm).2 ▸ List.getElem_mem _
    simp only at hek
    rw [hek, mem_dedicatedKeys] at ha
    exact h ha.2

theorem Memory.wf_dedKeyTable (l4 : Table Bucket) :
    Memory.wf (0 : CoarseKey) Config.numDed (dedKeyTable (dedicatedKeys l4)) := by
  refine Memory.wf_writeEntries 0 _ _ (Memory.wf_nil 0 _) fun e he => ?_
  obtain ⟨⟨a, j⟩, hm, rfl⟩ := List.mem_map.1 he
  have := (List.mem_zipIdx' hm).1
  rwa [dedicatedKeys_length] at this

theorem Memory.wf_slotMapTable (l4 : Table Bucket) :
    Memory.wf SlotEntry.zero Config.numL4 (slotMapTable (dedicatedKeys l4)) := by
  refine Memory.wf_writeEntries SlotEntry.zero _ _ (Memory.wf_nil _ _) fun e he => ?_
  obtain ⟨⟨a, j⟩, hm, rfl⟩ := List.mem_map.1 he
  have ha : a ∈ dedicatedKeys l4 := (List.mem_zipIdx' hm).2 ▸ List.getElem_mem _
  exact ((mem_dedicatedKeys l4 a).1 ha).1

end Sys2Proof.Machine
end

