-- ==== Sys2Proof/Laws/Walks.lean ====
section
/-! SUPPORT. What the walks of `REFINE`, `BUILD` and `ENCODE` leave (R131, R141, R142, R152), and that every one keeps
the canonical form of the table it writes. -/

namespace Sys2Proof.Machine

/-- A bucket after a list of pixels is added to it. -/
def addPixels (ps : List Pixel) (b : Bucket) : Bucket := ps.foldl (fun b px => addPixel px b) b

@[simp] theorem addPixels_nil (b : Bucket) : addPixels [] b = b := rfl

theorem addPixels_append_one (ps : List Pixel) (px : Pixel) (b : Bucket) :
    addPixels (ps ++ [px]) b = addPixel px (addPixels ps b) := by
  simp [addPixels]

theorem ofNat_add_setWidth (x : Word) (n : Nat) (c : Channel) :
    x + BitVec.ofNat 32 n + c.setWidth 32 = x + BitVec.ofNat 32 (n + c.toNat) := by
  rw [BitVec.add_assoc]
  congr 1
  apply BitVec.eq_of_toNat_eq
  simp [BitVec.toNat_add]

/-- The four fields after a list of pixels is added: 32-bit sums (R6). -/
theorem addPixels_eq (ps : List Pixel) (b : Bucket) : addPixels ps b =
    { sumR := b.sumR + BitVec.ofNat 32 (ps.map fun px => (r6 px).toNat).sum
      sumG := b.sumG + BitVec.ofNat 32 (ps.map fun px => (g6 px).toNat).sum
      sumB := b.sumB + BitVec.ofNat 32 (ps.map fun px => (b6 px).toNat).sum
      count := b.count + BitVec.ofNat 32 ps.length } := by
  induction ps using List.reverseRecOn with
  | nil => simp
  | append_singleton ps px ih =>
    rw [addPixels_append_one, ih]
    simp only [addPixel, List.map_append, List.sum_append, List.map_cons, List.map_nil, List.sum_cons, List.sum_nil,
      Nat.add_zero, List.length_append, List.length_cons, List.length_nil, Nat.zero_add, ofNat_add_setWidth]
    congr 1
    rw [BitVec.add_assoc]
    congr 1
    apply BitVec.eq_of_toNat_eq
    simp [BitVec.toNat_add]

theorem streamPixels_zero (s : State) (p : Pixel → Bool) : streamPixels s 0 p = [] := rfl

theorem streamPixels_succ (s : State) (m : Nat) (p : Pixel → Bool) :
    streamPixels s (m + 1) p =
      streamPixels s m p ++ if p (cachedPixel s.pixCache m) then [cachedPixel s.pixCache m] else [] := by
  simp only [streamPixels, List.range_succ, List.map_append, List.filter_append, List.map_cons, List.map_nil,
    List.filter_cons, List.filter_nil]

/-- The stream is what the cache holds below the length. -/
theorem streamPixels_congr {s t : State} {m : Nat} (h : ∀ n, n < m → cachedPixel t.pixCache n = cachedPixel s.pixCache n)
    (p : Pixel → Bool) : streamPixels t m p = streamPixels s m p := by
  rw [streamPixels, streamPixels]
  congr 1
  exact List.map_congr_left fun n hn => h n (List.mem_range.1 hn)

/-- Pass 2 completes where the cache exists, and adds to each bucket the undedicated pixels of its key (R131). -/
theorem refineWalk_completes (lim : Config.Limits) (s : State) (count : Nat) (hc : count ≤ lim.maxN) :
    ∃ l2, refineWalk lim s count = .ok l2 ∧
      (Memory.wf Bucket.zero Config.numL2 s.l2 → Memory.wf Bucket.zero Config.numL2 l2) ∧
      ∀ j : FineKey, readBucket l2 j.toNat =
        addPixels (streamPixels s count fun px => !(readSlot s.slotMap (k4 px)).sel && k2 px == j)
          (readBucket s.l2 j.toNat) := by
  refine forEachE_completes (fun m l2 =>
    (Memory.wf Bucket.zero Config.numL2 s.l2 → Memory.wf Bucket.zero Config.numL2 l2) ∧
      ∀ j : FineKey, readBucket l2 j.toNat =
        addPixels (streamPixels s m fun px => !(readSlot s.slotMap (k4 px)).sel && k2 px == j)
          (readBucket s.l2 j.toNat)) ⟨id, fun j => rfl⟩ count ?_
  rintro m hm l2 ⟨hw, hl⟩
  rw [cacheRead_of_lt (by omega)]
  refine ⟨_, rfl, fun h => ?_, fun j => ?_⟩
  · unfold refinePixel
    split
    · exact hw h
    · exact Memory.wf_accumulate (hw h) (k2 _).isLt _
  · rw [streamPixels_succ]
    unfold refinePixel
    split
    · rename_i hs
      simpa [hs] using hl j
    · rename_i hs
      rw [readBucket_accumulate]
      by_cases hj : k2 (cachedPixel s.pixCache m) = j
      · subst hj
        simp [hs, addPixels_append_one, hl]
      · have : j.toNat ≠ (k2 (cachedPixel s.pixCache m)).toNat := fun h => hj (BitVec.eq_of_toNat_eq h.symm)
        simp [hs, hj, this, hl]

/-- `(sum div count)[5:0]` as numbers. -/
theorem average_eq_meanColour {b : Bucket} (h : b.count.toNat ≠ 0) : average b = meanColour b := by
  rw [meanColour, if_neg h]
  simp only [average, Colour.mk.injEq]
  refine ⟨?_, ?_, ?_⟩ <;>
  · apply BitVec.eq_of_toNat_eq
    simp

theorem readColour_averageInto (pal : Table Colour) (slot j : Nat) (b : Bucket) :
    readColour (averageInto slot b pal) j =
      if j = slot ∧ b.count.toNat ≠ 0 then meanColour b else readColour pal j := by
  unfold averageInto
  by_cases h : b.count = 0
  · simp [h]
  · have h' : b.count.toNat ≠ 0 := fun e => h (BitVec.eq_of_toNat_eq e)
    rw [if_neg h, readColour_writeColour, average_eq_meanColour h']
    simp [h']

theorem Memory.wf_averageInto {n : Nat} {pal : Table Colour} (h : Memory.wf Colour.zero n pal) {slot : Nat}
    (hs : slot < n) (b : Bucket) : Memory.wf Colour.zero n (averageInto slot b pal) := by
  unfold averageInto
  split
  · exact h
  · exact Memory.wf_writeEntry Colour.zero h hs _

/-- The dedicated range of `BUILD`, slots 0 to 127 (R141). -/
theorem readColour_dedicatedRange (s : State) (pal : Table Colour) (j : Nat) :
    readColour (dedicatedRange s pal) j =
      if j < 128 ∧ (slotBucket s j).count.toNat ≠ 0 then meanColour (slotBucket s j) else readColour pal j := by
  suffices h : ∀ n, n ≤ 128 →
      readColour (forEach n (fun slot p => averageInto slot (readBucket s.l4 (readKey s.dedKey slot).toNat) p) pal) j =
        if j < n ∧ (slotBucket s j).count.toNat ≠ 0 then meanColour (slotBucket s j) else readColour pal j from
    h 128 (Nat.le_refl _)
  intro n
  induction n with
  | zero => intro _; simp [forEach]
  | succ n ih =>
    intro hn
    rw [forEach, readColour_averageInto, ih (by omega)]
    by_cases hj : j = n
    · subst hj
      have : slotBucket s j = readBucket s.l4 (readKey s.dedKey j).toNat := if_pos (by omega)
      simp [this]
    · have : j < n + 1 ↔ j < n := by omega
      simp [hj, this]

/-- The shared range of `BUILD`, slots 128 to 191 (R142). -/
theorem readColour_sharedRange (s : State) (pal : Table Colour) (j : Nat) :
    readColour (sharedRange s pal) j =
      if (128 ≤ j ∧ j < 192) ∧ (slotBucket s j).count.toNat ≠ 0 then meanColour (slotBucket s j)
      else readColour pal j := by
  suffices h : ∀ n, n ≤ 64 →
      readColour (forEach n (fun i p => averageInto (Config.sharedBase + i) (readBucket s.l2 i) p) pal) j =
        if (128 ≤ j ∧ j < 128 + n) ∧ (slotBucket s j).count.toNat ≠ 0 then meanColour (slotBucket s j)
        else readColour pal j from h 64 (Nat.le_refl _)
  intro n
  induction n with
  | zero => intro _; simp [forEach]
  | succ n ih =>
    intro hn
    rw [forEach, readColour_averageInto, ih (by omega)]
    by_cases hj : j = 128 + n
    · subst hj
      have : slotBucket s (128 + n) = readBucket s.l2 n := by
        rw [slotBucket, if_neg (by omega), Nat.add_sub_cancel_left]
      simp [this]
    · have h1 : j ≠ Config.sharedBase + n := hj
      have h2 : j < 128 + (n + 1) ↔ j < 128 + n := by omega
      simp [h1, h2]

theorem Memory.wf_dedicatedRange (s : State) {pal : Table Colour} (h : Memory.wf Colour.zero Config.numPal pal) :
    Memory.wf Colour.zero Config.numPal (dedicatedRange s pal) :=
  forEach_induction (fun _ p => Memory.wf Colour.zero Config.numPal p) h _
    fun k hk _ hp => Memory.wf_averageInto hp (by simp only [Config.numPal, Config.numDed] at *; omega) _

theorem Memory.wf_sharedRange (s : State) {pal : Table Colour} (h : Memory.wf Colour.zero Config.numPal pal) :
    Memory.wf Colour.zero Config.numPal (sharedRange s pal) :=
  forEach_induction (fun _ p => Memory.wf Colour.zero Config.numPal p) h _
    fun k hk _ hp => Memory.wf_averageInto hp
      (by simp only [Config.numPal, Config.numL2, Config.sharedBase] at *; omega) _

/-- Pass 3 completes where every address is defined and exists, writes each pixel's index byte at its address when no two
addresses agree, and leaves every other byte (R152). -/
theorem encodeWalk_completes (lim : Config.Limits) (s : State) (addr : Nat → Nat) (count : Nat) (hc : count ≤ lim.maxN)
    (hd : ∀ n, n < count → photoAddr s.runW.toNat s.runH.toNat n = some (addr n) ∧ addr n < lim.maxN)
    (hinj : ∀ n m, n < count → m < count → addr n = addr m → n = m) :
    ∃ photo, encodeWalk lim s count = .ok photo ∧
      (Memory.wf (0 : Byte) lim.maxN s.qPhoto → Memory.wf (0 : Byte) lim.maxN photo) ∧
      (∀ n, n < count → photoByte photo (addr n) = indexOf s.slotMap (cachedPixel s.pixCache n)) ∧
      ∀ a, (∀ n, n < count → addr n ≠ a) → photoByte photo a = photoByte s.qPhoto a := by
  refine forEachE_completes (fun m photo =>
      (Memory.wf (0 : Byte) lim.maxN s.qPhoto → Memory.wf (0 : Byte) lim.maxN photo) ∧
      (∀ n, n < m → photoByte photo (addr n) = indexOf s.slotMap (cachedPixel s.pixCache n)) ∧
      ∀ a, (∀ n, n < m → addr n ≠ a) → photoByte photo a = photoByte s.qPhoto a)
    ⟨id, by simp, fun _ _ => rfl⟩ count ?_
  rintro m hm photo ⟨hw, hr, ho⟩
  obtain ⟨ha, hlt⟩ := hd m hm
  refine ⟨writeEntry 0 photo (addr m) (indexOf s.slotMap (cachedPixel s.pixCache m)), ?_, ?_, ?_, ?_⟩
  · simp [encodePixel, cacheRead_of_lt (show m < lim.maxN by omega), ha, photoWrite_of_lt hlt]
  · exact fun h => Memory.wf_writeEntry _ (hw h) hlt _
  · intro n hn
    rw [photoByte_write]
    split
    · rename_i he
      rw [hinj n m (by omega) hm he]
    · rename_i he
      exact hr n (by rcases Nat.lt_succ_iff_lt_or_eq.1 hn with h | rfl; exact h; exact absurd rfl he)
  · intro a hne
    rw [photoByte_write, if_neg fun h => hne m (by omega) h.symm]
    exact ho a fun n hn => hne n (by omega)

/-- Nothing is listed at reset, so every table and RAM has its canonical form. -/
theorem reset_memoryWf (lim : Config.Limits) : MemoryWf lim State.reset :=
  ⟨Memory.wf_nil _ _, Memory.wf_nil _ _, Memory.wf_nil _ _, Memory.wf_nil _ _, Memory.wf_nil _ _, Memory.wf_nil _ _,
    Memory.wf_nil _ _⟩

end Sys2Proof.Machine
end

