-- ==== Sys2Proof/Tests/Slice0.lean ====
section
/-! SUPPORT. Tests, their expected results taken from 95_test_vectors.md and from the encoding tables of
30_encoding.md, and the witnesses that the hypotheses of the statements can be met. Vectors that need concrete
parameters use the instance of 93_implementation_defined.md G1, 1024 by 1024. -/

namespace Sys2Proof.Tests

open Sys2Proof.Machine

/-! ### Mapped locations -/

theorem test_register_ten_mapped : (Instr.rdreg 10).wellFormed = true := by decide
theorem test_register_eleven_unmapped : (Instr.rdreg 11).wellFormed = false := by decide
theorem test_slot_191_mapped : (Instr.rdpal 191).wellFormed = true := by decide
theorem test_slot_192_unmapped : (Instr.rdpal 192).wellFormed = false := by decide

/-! ### Decoding: words written out as `rw`, `addr`, `wdata` from the tables of R61 to R64 -/

theorem test_decode_nop : decode (1#1 ++ 0x00000000#32 ++ 0x00000000#32) = .ok .nop := by decide
theorem test_decode_start : decode (1#1 ++ 0x00000000#32 ++ 0x00000001#32) = .ok .start := by decide
theorem test_decode_rank : decode (1#1 ++ 0x00000000#32 ++ 0x00000002#32) = .ok .rank := by decide
theorem test_decode_refine : decode (1#1 ++ 0x00000000#32 ++ 0x00000003#32) = .ok .refine := by decide
theorem test_decode_build : decode (1#1 ++ 0x00000000#32 ++ 0x00000004#32) = .ok .build := by decide
theorem test_decode_encode : decode (1#1 ++ 0x00000000#32 ++ 0x00000005#32) = .ok .encode := by decide
theorem test_decode_abort : decode (1#1 ++ 0x00000000#32 ++ 0x00000006#32) = .ok .abort := by decide
theorem test_decode_op_seven : decode (1#1 ++ 0x00000000#32 ++ 0x00000007#32) = .error .illegalCommand := by decide
theorem test_decode_upper_bits : decode (1#1 ++ 0x00000000#32 ++ 0x00000011#32) = .error .illegalCommand := by decide
theorem test_decode_clrerr : decode (1#1 ++ 0x00000002#32 ++ 0xFFFFFFF5#32) = .ok (.clrerr 0b0101) := by decide
theorem test_decode_setw : decode (1#1 ++ 0x00000003#32 ++ 0x00000401#32) = .ok (.setw 1025) := by decide
theorem test_decode_seth : decode (1#1 ++ 0x00000004#32 ++ 0x00000001#32) = .ok (.seth 1) := by decide
theorem test_decode_push : decode (1#1 ++ 0x00000005#32 ++ 0xDEAD07E0#32) = .ok (.push 0x07E0) := by decide
theorem test_decode_write_six : decode (1#1 ++ 0x00000006#32 ++ 0x00000000#32) = .error .writeNotMapped := by decide
theorem test_decode_rdreg : decode (0#1 ++ 0x0000000A#32 ++ 0x00000000#32) = .ok (.rdreg 10) := by decide
theorem test_decode_rdreg_unmapped : decode (0#1 ++ 0x0000000F#32 ++ 0x00000000#32) = .ok (.rdreg 15) := by decide
theorem test_decode_rdpal : decode (0#1 ++ 0x000001BF#32 ++ 0x00000000#32) = .ok (.rdpal 191) := by decide
theorem test_decode_rdded : decode (0#1 ++ 0x0000027F#32 ++ 0x00000000#32) = .ok (.rdded 127) := by decide
theorem test_decode_rdl2 : decode (0#1 ++ 0x0000031E#32 ++ 0x00000000#32) = .ok (.rdl2 7 .sumB) := by decide
theorem test_decode_rdslot : decode (0#1 ++ 0x00001F00#32 ++ 0x00000000#32) = .ok (.rdslot 0xF00) := by decide
theorem test_decode_rdl4 : decode (0#1 ++ 0x00007FFF#32 ++ 0x00000000#32) = .ok (.rdl4 0xFFF .count) := by decide
theorem test_decode_rdphoto : decode (0#1 ++ 0x01000003#32 ++ 0x00000000#32) = .ok (.rdphoto 3) := by decide
theorem test_decode_hole : decode (0#1 ++ 0x00008000#32 ++ 0x00000000#32) = .error .readNotMapped := by decide
theorem test_decode_above_photo : decode (0#1 ++ 0x02000000#32 ++ 0x00000000#32) = .error .readNotMapped := by decide

/-- A row's word of spec/opcode_table.json, as the host numbers it: `RDL4` with `k = 0xF00`, `f = 3`. -/
theorem test_table_word : decodeTableWord 65 0x00007C0300000000 = some (.rdl4 0xF00 .count) := by decide

/-! ### Data formats (V1) -/

theorem test_coarse_keys :
    [0xF800, 0x07E0, 0x001F, 0x0020, 0x0002, 0x0080, 0x1000, 0xABCD, 0x039E].map k4 =
      [0xF00, 0x0F0, 0x00F, 0x000, 0x001, 0x010, 0x100, 0xA76, 0x07F] := by decide

theorem test_fine_keys : [0xFFFF, 0x0008, 0x0200, 0x4000, 0x8410, 0xABCD].map k2 = [63, 1, 4, 16, 42, 37] := by decide

theorem test_channels : [r6 0xABCD, g6 0xABCD, b6 0xABCD, r6 0xFFFF, g6 0xFFFF, b6 0xFFFF] = [42, 30, 26, 62, 63, 62] := by
  decide

theorem test_palette_words : [paletteWord ⟨62, 0, 0⟩, paletteWord ⟨0, 63, 0⟩, paletteWord ⟨4, 9, 13⟩] =
    [0x0003E000, 0x00000FC0, 0x0000424D] := by decide

/-! ### One instruction on a small state (V2 to V8, P1) -/

/-- The instance of 93_implementation_defined.md G1. -/
def g1 : Config.Limits := ⟨1024, 1024⟩

/-- An outcome is a next state that passes a check. -/
def nextMeets (o : Host.Outcome State Fault Refusal) (p : State → Bool) : Bool :=
  match o with
  | .next t => p t
  | .fault _ => false
  | .refused _ => false

/-- A state in a phase, with the dimensions the host wrote. -/
def atPhase (p : Phase) (w h : Word) : State := { State.reset with phase := p, width := w, height := h }

/-- A run of a given size in a phase, with pixels in the cache. -/
def runOf (p : Phase) (w h : Nat) (pixels : List Pixel) : State :=
  { State.reset with
    phase := p
    runW := BitVec.ofNat 32 w
    runH := BitVec.ofNat 32 h
    npix := BitVec.ofNat 32 (w * h)
    pixIdx := BitVec.ofNat 32 pixels.length
    pixCache := writeEntries 0 [] (pixels.zipIdx.map fun e => (e.2, e.1)) }

theorem test_nop : nextMeets (exec .nop (atPhase .ranked 3 4)) (· == atPhase .ranked 3 4) = true := by decide

theorem test_start : nextMeets (startOn g1 (atPhase .idle 2 2))
    (fun t => t.runW == 2 && t.runH == 2 && t.npix == 4 && t.phase == .fill) = true := by decide

theorem test_start_width_too_large : nextMeets (startOn g1 (atPhase .idle 0xFFFFFFFF 0))
    (· == { atPhase .idle 0xFFFFFFFF 0 with err := 0b0001 }) = true := by decide

theorem test_abort : nextMeets (exec .abort (atPhase .built 2 2)) (· == atPhase .idle 2 2) = true := by decide

theorem test_setw : nextMeets (exec (.setw 9) (runOf .ranked 2 1 [])) (fun t => t.width == 9 && t.runW == 2) = true := by
  decide

theorem test_seth : nextMeets (exec (.seth 9) (runOf .ranked 1 2 [])) (fun t => t.height == 9 && t.runH == 2) = true := by
  decide

theorem test_clrerr : nextMeets (exec (.clrerr 0b0101) { State.reset with err := 0b1111 }) (·.err == 0b1010) = true := by
  decide

/-- V3 step 4: the last pixel of four, in the bucket of the first and the third. -/
theorem test_push_last : nextMeets
    (pushOn g1 0xF801 { runOf .fill 2 2 [0xF800, 0x07E0, 0xF800] with
      l4 := [(0x0F0, ⟨0, 63, 0, 1⟩), (0xF00, ⟨124, 0, 0, 2⟩)] })
    (fun t => t.l4 == [(0x0F0, ⟨0, 63, 0, 1⟩), (0xF00, ⟨186, 0, 2, 3⟩)] && cachedPixel t.pixCache 3 == 0xF801 &&
      t.pixIdx == 4 && t.phase == .filled) = true := by decide

/-- V3 step 5. -/
theorem test_push_when_filled :
    nextMeets (pushOn g1 0 (runOf .filled 1 1 [7])) (· == { runOf .filled 1 1 [7] with err := 0b0010 }) = true := by decide

/-- V4, third row: a three-way tie in key order, then the empty buckets. -/
theorem test_rank_ties : (dedicatedKeys
    [(0x003, ⟨0, 0, 0, 2⟩), (0x005, ⟨0, 0, 0, 2⟩), (0xFFF, ⟨0, 0, 0, 2⟩)]).take 8 =
      [0x003, 0x005, 0xFFF, 0x000, 0x001, 0x002, 0x004, 0x006] := by decide +kernel

/-- V4, second row: the two tables for given keys. -/
theorem test_rank_tables :
    (readKey (dedKeyTable [0x123, 0x0F0, 0x000]) 1, slotWord (readSlot (slotMapTable [0x123, 0x0F0, 0x000]) 0x123),
      slotWord (readSlot (slotMapTable [0x123, 0x0F0, 0x000]) 0), slotWord (readSlot (slotMapTable [0x123, 0x0F0]) 1)) =
      (0x0F0, 0x80, 0x82, 0) := by decide

/-- V5. -/
theorem test_refine : nextMeets
    (refineOn g1 { runOf .ranked 3 1 [0x039E, 0x039F, 0x0400] with slotMap := [(0x080, ⟨true, 0⟩)] })
    (fun t => t.l2 == [(7, ⟨0, 56, 122, 2⟩)] && t.phase == .refined) = true := by decide

/-- V5 with the key dedicated to slot 5. -/
theorem test_refine_dedicated : nextMeets
    (refineOn g1 { runOf .ranked 2 1 [0x039E, 0x039F] with slotMap := [(0x07F, ⟨true, 5⟩)] }) (·.l2 == []) = true := by
  decide

/-- V6: rounding down, the largest entry, and a black bucket. -/
theorem test_average : [average ⟨14, 28, 40, 3⟩, average ⟨0, 56, 122, 2⟩, average ⟨434, 441, 434, 7⟩, average ⟨0, 1, 0, 2⟩] =
    [⟨4, 9, 13⟩, ⟨0, 28, 61⟩, ⟨62, 63, 62⟩, ⟨0, 0, 0⟩] := by decide

/-- V6, slot placement: `DED_KEY[5]` gives slot 5, Level-2 buckets 7 and 63 give slots 135 and 191. -/
theorem test_build_slots : nextMeets
    (exec .build { runOf .refined 9 1 [] with
      l4 := [(0x123, ⟨14, 28, 40, 3⟩)], dedKey := [(5, 0x123)], l2 := [(7, ⟨0, 56, 122, 2⟩), (63, ⟨62, 63, 62, 1⟩)] })
    (·.palette == [(5, ⟨4, 9, 13⟩), (135, ⟨0, 28, 61⟩), (191, ⟨62, 63, 62⟩)]) = true := by decide +kernel

/-- V7, the rows of `photo_addr`. -/
theorem test_photo_addr : (List.range 6).map (photoAddr 3 2) = [3, 4, 5, 0, 1, 2].map some ∧
    (List.range 4).map (photoAddr 1 4) = [3, 2, 1, 0].map some ∧
    (List.range 6).map (photoAddr 2 3) = [4, 5, 2, 3, 0, 1].map some := by decide

/-- P1 step 11. -/
theorem test_encode : nextMeets
    (encodeOn g1 { runOf .built 2 2 [0xF800, 0x07E0, 0xF800, 0xF800] with
      slotMap := [(0x0F0, ⟨true, 1⟩), (0xF00, ⟨true, 0⟩)] })
    (fun t => t.qPhoto == [(0, 64), (1, 64), (2, 64), (3, 65)] && t.phase == .done) = true := by decide

/-- V7, shared indices: the highest is 255. -/
theorem test_encode_shared : [indexOf [] 0x039E, indexOf [] 0xFFFF, indexOf [] 0, indexOf [(0xF00, ⟨true, 127⟩)] 0xF800] =
    [199, 255, 192, 191] := by decide

theorem test_rdreg_maxdim : nextMeets (readRegisterOn g1 10 State.reset) (·.rdata == some 0x04000400) = true := by decide

theorem test_rdreg_status : nextMeets (readRegisterOn g1 1 (atPhase .done 0 0)) (·.rdata == some 0xE) = true := by decide

theorem test_rdpal : nextMeets (exec (.rdpal 191) { atPhase .done 0 0 with palette := [(191, ⟨62, 0, 0⟩)] })
    (·.rdata == some 0x0003E000) = true := by decide

theorem test_rdpal_gated : nextMeets (exec (.rdpal 0) { atPhase .built 0 0 with palette := [(0, ⟨62, 0, 0⟩)] })
    (fun t => t.rdata == some 0 && t.err == 0) = true := by decide

theorem test_rdded : nextMeets (exec (.rdded 127) { atPhase .ranked 0 0 with dedKey := [(127, 0x07D)] })
    (·.rdata == some 0x07D) = true := by decide

theorem test_rdl2 : nextMeets (exec (.rdl2 63 .count) { atPhase .refined 0 0 with l2 := [(63, ⟨1, 2, 3, 4⟩)] })
    (·.rdata == some 4) = true := by decide

theorem test_rdslot : nextMeets (exec (.rdslot 0xF00) { atPhase .ranked 0 0 with slotMap := [(0xF00, ⟨true, 1⟩)] })
    (·.rdata == some 0x81) = true := by decide

theorem test_rdl4 : nextMeets (exec (.rdl4 0 .sumR) { atPhase .fill 0 0 with l4 := [(0, ⟨9, 2, 3, 4⟩)] })
    (·.rdata == some 9) = true := by decide

theorem test_rdphoto : nextMeets (readPhotoOn g1 3 { runOf .done 2 2 [0, 0, 0, 0] with qPhoto := [(3, 65)] })
    (·.rdata == some 65) = true := by decide

theorem test_rdphoto_past_end : nextMeets (readPhotoOn g1 4 { runOf .done 2 2 [0, 0, 0, 0] with qPhoto := [(4, 65)] })
    (fun t => t.rdata == some 0 && t.err == 0) = true := by decide

/-- P5 steps 6 and 9: an illegal command, and a write to `STATUS`. -/
theorem test_step_rejects :
    nextMeets (step (State.reset.withFetchWord 65 0x10000000000000007)) (·.err == 0b0100) = true ∧
    nextMeets (step (State.reset.withFetchWord 65 0x10000000100000005)) (·.err == 0b1000) = true := by decide

/-! ### Witnesses: the hypotheses of the statements can be met, each clause at a boundary -/

theorem witness_rows : 0x10000000000000001#65 &&& rowMask .start = rowMatch .start ∧ decode 0x10000000000000001#65 = .ok .start ∧
    (∃ r, decode 0x00000028000000000#65 = .error r) := ⟨by decide, by decide, .readNotMapped, by decide⟩

theorem witness_ignored_bits : decode 0x1000000025DEADBEF#65 = .ok (.clrerr 0xF) ∧
    decode 0x0000000010000FFFF#65 = .ok (.rdreg 1) := by decide

theorem witness_step_runs : (issueNext (encode .abort) State.reset).hostIn = .transaction (encode .abort) :: [] ∧
    decode (encode .abort) = .ok .abort := by decide

theorem witness_idle_and_reset : State.reset.hostIn = [] ∧
    { State.reset with hostIn := [.reset, .transaction 0] }.hostIn = .reset :: [.transaction 0] := by decide

/-- The clauses of `IllegalAndUnmappedTransactions` at their boundaries. -/
theorem witness_illegal : 7 ≤ (7 : Word).toNat ∧ 7 ≤ (0xFFFFFFFF : Word).toNat ∧
    ((1 : Word).toNat ≠ 0 ∧ (1 : Word).toNat ≠ 2) ∧ ((6 : Word).toNat ≠ 5 ∧ (6 : Word).toNat ≠ 4) ∧
    (∀ a ∈ [0xB, 0xFF, 0x1C0, 0x1FF, 0x280, 0x2FF, 0x400, 0xFFF, 0x2000, 0x3FFF, 0x8000, 0xFFFFFF, 0x2000000],
      ¬ readMapped a) := by
  refine ⟨by decide, by decide, by decide, by decide, ?_⟩
  simp [readMapped]

/-- The mapped windows at both ends (`AbortHidesTheRun`). -/
theorem witness_mapped : ∀ a ∈ [0x100, 0x1BF, 0x200, 0x27F, 0x300, 0x3FF, 0x1000, 0x1FFF, 0x4000, 0x7FFF, 0x1000000, 0x1FFFFFF],
    readMapped a ∧ 0x100 ≤ a := by
  simp [readMapped]

theorem witness_clrerr_bits : (0 : Nat) < 4 ∧ (3 : Nat) < 4 := by decide

/-- `START` from `IDLE` and from `DONE`: a size too large whatever the instance, the empty run, the one-pixel run. -/
theorem witness_start :
    (Config.limits.maxW < (atPhase .idle 0xFFFFFFFF 0).width.toNat ∧ (atPhase .idle 0xFFFFFFFF 0).phase = .idle) ∧
    (Config.limits.maxH < (atPhase .done 0 0x10000).height.toNat ∧ (atPhase .done 0 0x10000).phase = .done) ∧
    ((atPhase .idle 0 0).width.toNat ≤ Config.limits.maxW ∧ (atPhase .idle 0 0).height.toNat ≤ Config.limits.maxH) ∧
    ((atPhase .done 1 1).width.toNat ≤ Config.limits.maxW ∧ (atPhase .done 1 1).height.toNat ≤ Config.limits.maxH) := by
  have h := Config.limits_legal
  have h1 : (0xFFFFFFFF : Word).toNat = 0xFFFFFFFF := rfl
  have h2 : (0x10000 : Word).toNat = 0x10000 := rfl
  have h3 : (1 : Word).toNat = 1 := rfl
  have h4 : (0 : Word).toNat = 0 := rfl
  simp only [atPhase, h1, h2, h3, h4, and_true]
  refine ⟨?_, ?_, ?_, ?_⟩ <;> omega

/-- The one-pixel run at the start of `FILL`. -/
def onePixelDue : State := runOf .fill 1 1 []

theorem witness_inv_fill : Inv Config.limits onePixelDue := by
  have h := Config.limits_legal
  refine ⟨⟨Memory.wf_nil _ _, Memory.wf_nil _ _, Memory.wf_nil _ _, Memory.wf_nil _ _, Memory.wf_nil _ _,
    Memory.wf_nil _ _, Memory.wf_nil _ _⟩, h.1.1, h.2.1.1, by decide, by decide, fun _ => by decide, ?_⟩
  intro _ hf
  exact absurd rfl hf

theorem witness_runInv_fill : RunInv onePixelDue := by
  have hp : onePixelDue.phase = .fill := rfl
  constructor
  · intro _ k; exact ⟨rfl, rfl, rfl, rfl⟩
  · intros; rfl
  · intro h; simp [hp, afterRank] at h
  · intro h; simp [hp, afterRefine] at h
  · intros; rfl
  · intro h; simp [hp, afterBuild] at h
  · intro h; simp [hp] at h

/-- The Level-4 table of the one-pixel photo of colour `0xF800` (V1, V3 step 1). -/
def oneBucket : Table Bucket := [(0xF00, ⟨62, 0, 0, 1⟩)]

/-- The run of the one-pixel photo of colour `0xF800` as it stands in a phase from `RANKED` on. -/
def onePixel (p : Phase) : State :=
  { runOf p 1 1 [0xF800] with
    l4 := oneBucket
    dedKey := dedKeyTable (dedicatedKeys oneBucket)
    slotMap := slotMapTable (dedicatedKeys oneBucket)
    palette := if p = .built ∨ p = .done then [(0, ⟨62, 0, 0⟩)] else []
    qPhoto := [(0, 64)] }

theorem witness_inv (p : Phase) (hp : p ≠ .fill) : Inv Config.limits (onePixel p) := by
  have h := Config.limits_legal
  have hn := Config.maxN_pos
  refine ⟨⟨?_, Memory.wf_nil _ _, Memory.wf_dedKeyTable _, Memory.wf_slotMapTable _, ?_, ?_, ?_⟩,
    h.1.1, h.2.1.1, rfl, Nat.le_refl 1, fun h => absurd h hp, fun _ _ => rfl⟩
  · show Memory.wf _ _ oneBucket
    decide
  · simp only [onePixel]
    split <;> decide
  · exact ⟨List.pairwise_singleton _ _, by show ∀ e ∈ [(0, (0xF800 : Pixel))], _; simpa using hn⟩
  · exact ⟨List.pairwise_singleton _ _, by simpa [onePixel] using hn⟩

theorem rank_onePixel : rankOf oneBucket 0xF00 = 0 := by decide +kernel

/-- Key 0 is the first of the empty buckets, and the last key is not dedicated (R121). -/
theorem ranks_of_empty_buckets : rankOf oneBucket 0 = 1 ∧ rankOf oneBucket 0xFFF = 4095 := by decide +kernel

theorem key_of_slot_zero : readKey (dedKeyTable (dedicatedKeys oneBucket)) 0 = 0xF00 := by
  have h := readKey_dedKeyTable oneBucket (k := 0xF00) (by decide) (by rw [rank_onePixel]; decide)
  rwa [rank_onePixel] at h

theorem slot_of_red : readSlot (slotMapTable (dedicatedKeys oneBucket)) 0xF00 = ⟨true, 0⟩ := by
  have h := readSlot_slotMapTable oneBucket 0xF00
  rwa [show (0xF00 : CoarseKey).toNat = 0xF00 from rfl, rank_onePixel, if_pos (by decide)] at h

theorem bucket_of_red (k : CoarseKey) :
    readBucket oneBucket k.toNat = if k = 0xF00 then ⟨62, 0, 0, 1⟩ else Bucket.zero := by
  by_cases hk : k = 0xF00
  · subst hk; decide
  · have : 0xF00 ≠ k.toNat := fun h => hk (BitVec.eq_of_toNat_eq h.symm)
    rw [if_neg hk]
    simp [oneBucket, readBucket, readEntry, this]

/-- Only slot 0 holds the key of the populated bucket. -/
theorem bucket_of_slot (p : Phase) (slot : Nat) (h : slot < 192) :
    slotBucket (onePixel p) slot = if slot = 0 then ⟨62, 0, 0, 1⟩ else Bucket.zero := by
  unfold slotBucket
  by_cases h1 : slot < 128
  · rw [if_pos h1]
    by_cases h0 : slot = 0
    · subst h0
      rw [if_pos rfl]
      show readBucket oneBucket (readKey (dedKeyTable (dedicatedKeys oneBucket)) 0).toNat = _
      rw [key_of_slot_zero, bucket_of_red, if_pos rfl]
    · rw [if_neg h0]
      have hi : slot < (dedicatedKeys oneBucket).length := by rw [dedicatedKeys_length]; exact h1
      obtain ⟨hk, hr⟩ := dedicatedKeys_getElem oneBucket hi
      generalize (dedicatedKeys oneBucket)[slot] = k at hk hr
      have hd := readKey_dedKeyTable oneBucket hk (by omega)
      rw [hr] at hd
      show readBucket oneBucket (readKey (dedKeyTable (dedicatedKeys oneBucket)) slot).toNat = _
      rw [hd, bucket_of_red, if_neg]
      intro he
      have := congrArg BitVec.toNat he
      rw [BitVec.toNat_ofNat, Nat.mod_eq_of_lt hk] at this
      subst this
      rw [show (0xF00 : CoarseKey).toNat = 0xF00 from rfl, rank_onePixel] at hr
      omega
  · rw [if_neg h1, if_neg (by omega)]; rfl

/-- The tables of the one-pixel run are what a run leaves. -/
theorem witness_runInv (p : Phase) : RunInv (onePixel p) := by
  have hph : (onePixel p).phase = p := rfl
  have hnp : (onePixel p).npix.toNat = 1 := rfl
  have hstream : ∀ q, streamPixels (onePixel p) 1 q = if q 0xF800 then [0xF800] else [] := fun q => by
    rw [streamPixels_succ, streamPixels_zero]; rfl
  constructor
  · intro _ k
    show HoldsTotals (readBucket oneBucket k.toNat) (streamPixels (onePixel p) 1 _)
    rw [bucket_of_red, hstream]
    by_cases hk : k = 0xF00
    · subst hk; exact ⟨by decide, by decide, by decide, by decide⟩
    · have : (k4 0xF800 == k) = false := beq_eq_false_iff_ne.2 fun h => hk (h.symm.trans (by decide))
      rw [if_neg hk, this]; exact ⟨rfl, rfl, rfl, rfl⟩
  · intro _ _ j; rfl
  · intro _ k
    have h := readSlot_slotMapTable oneBucket k
    show if rankOf oneBucket k.toNat < 128 then _ else _
    split
    · rename_i hlt
      rw [if_pos hlt] at h
      exact ⟨(readKey_dedKeyTable oneBucket k.isLt hlt).trans (by simp), h⟩
    · rename_i hlt
      rwa [if_neg hlt] at h
  · intro _ j
    show HoldsTotals Bucket.zero (streamPixels (onePixel p) 1 _)
    have hs : (readSlot (onePixel p).slotMap (k4 0xF800)).sel = true := by
      rw [show k4 0xF800 = 0xF00 by decide]
      exact congrArg SlotEntry.sel slot_of_red
    rw [hstream]
    simp only [hs, Bool.not_true, Bool.false_and, Bool.false_eq_true, if_false]
    exact ⟨rfl, rfl, rfl, rfl⟩
  · intro _ hb slot
    have : (onePixel p).palette = [] := if_neg hb
    rw [this]; rfl
  · intro hb slot hs
    have : (onePixel p).palette = [(0, ⟨62, 0, 0⟩)] := if_pos hb
    rw [this, bucket_of_slot p slot hs]
    by_cases h0 : slot = 0
    · subst h0; decide
    · simp [readColour, readEntry, h0, Ne.symm h0, meanColour]
  · intro _ n hn
    rw [hnp] at hn
    obtain rfl : n = 0 := by omega
    refine ⟨0, (by decide : photoAddr 1 1 0 = some 0), ?_⟩
    show (64 : Byte) = indexByte (readSlot (slotMapTable (dedicatedKeys oneBucket)) (k4 0xF800)) 0xF800
    rw [show k4 0xF800 = 0xF00 by decide, slot_of_red]
    decide

/-! The steps of the one-pixel run: a transition of every kind, and the hypotheses of the statements about each block. -/

theorem witness_push : Inv Config.limits onePixelDue ∧ RunInv onePixelDue ∧ onePixelDue.phase = .fill ∧ onePixelDue.pixIdx.toNat < Config.limits.maxN ∧
    exec (.push 0xF800) onePixelDue = .next { onePixelDue with
      l4 := oneBucket, pixCache := [(0, 0xF800)], pixIdx := 1, phase := .filled } := by
  refine ⟨witness_inv_fill, witness_runInv_fill, rfl, Config.maxN_pos, ?_⟩
  show inPhases [.fill] (pushPixel Config.limits 0xF800) onePixelDue = _
  rw [inPhases_of_mem (by decide), pushPixel,
    cacheWrite_of_lt (show onePixelDue.pixIdx.toNat < _ from Config.maxN_pos)]
  rfl

theorem witness_inv_empty_run (p : Phase) (hp : p ≠ .fill) : Inv Config.limits (atPhase p 0 0) :=
  ⟨⟨Memory.wf_nil _ _, Memory.wf_nil _ _, Memory.wf_nil _ _, Memory.wf_nil _ _, Memory.wf_nil _ _, Memory.wf_nil _ _,
    Memory.wf_nil _ _⟩, Nat.zero_le _, Nat.zero_le _, rfl, Nat.le_refl _, fun h => absurd h hp, fun _ _ => rfl⟩

/-- The commands of an empty run, each in its phase (`PhaseTransitionTable`). -/
theorem witness_transitions : (∀ p, p ≠ .fill → Inv Config.limits (atPhase p 0 0)) ∧
    nextMeets (exec .rank (atPhase .filled 0 0)) (·.phase == .ranked) = true ∧
    nextMeets (exec .refine (atPhase .ranked 0 0)) (·.phase == .refined) = true ∧
    nextMeets (exec .build (atPhase .refined 0 0)) (·.phase == .built) = true ∧
    nextMeets (exec .encode (atPhase .built 0 0)) (·.phase == .done) = true ∧
    nextMeets (exec .abort (atPhase .done 0 0)) (·.phase == .idle) = true :=
  ⟨witness_inv_empty_run, rfl, rfl, by decide, rfl, rfl⟩

/-- A `PUSH` that is not the last: the first of two pixels, on every instance that is at least
two wide (`PhaseTransitionTable`). -/
theorem witness_push_not_last : (2 ≤ Config.limits.maxW → Inv Config.limits (runOf .fill 2 1 [])) ∧
    nextMeets (exec (.push 0xF800) (runOf .fill 2 1 [])) (fun t => t.phase == .fill && t.pixIdx == 1) = true := by
  constructor
  · intro hw
    exact ⟨⟨Memory.wf_nil _ _, Memory.wf_nil _ _, Memory.wf_nil _ _, Memory.wf_nil _ _, Memory.wf_nil _ _,
      Memory.wf_nil _ _, Memory.wf_nil _ _⟩, hw, Config.limits_legal.2.1.1, by decide, by decide, fun _ => by decide,
      fun _ h => absurd rfl h⟩
  · show nextMeets (inPhases [.fill] (pushPixel Config.limits 0xF800) (runOf .fill 2 1 [])) _ = true
    rw [inPhases_of_mem (by decide), pushPixel,
      cacheWrite_of_lt (show (runOf .fill 2 1 []).pixIdx.toNat < _ from Config.maxN_pos)]
    rfl

/-- A step of the finished one-pixel run (`EveryStepGoesOnAndKeepsInv`, `EveryStepKeepsRunInv`). -/
theorem witness_step_inv : Inv Config.limits (onePixel .done) ∧ RunInv (onePixel .done) ∧
    step (onePixel .done) = .next (onePixel .done) :=
  ⟨witness_inv .done (by decide), witness_runInv .done, rfl⟩

theorem witness_rank : (onePixel .filled).phase = .filled ∧
    exec .rank (onePixel .filled) = .next { onePixel .filled with phase := .ranked } := ⟨rfl, rfl⟩

/-- Ranks 0, 1 and 4095: a dedicated key with a count, an empty dedicated one, and a key outside (`onePixel`). -/
theorem witness_rank_clauses : rankOf oneBucket (0xF00 : CoarseKey).toNat < 128 ∧ rankOf oneBucket (0 : CoarseKey).toNat < 128 ∧
    ¬ rankOf oneBucket (0xFFF : CoarseKey).toNat < 128 ∧
    (readSlot (onePixel .ranked).slotMap 0xF00).sel = true ∧ (readSlot (onePixel .ranked).slotMap 0xFFF).sel = false := by
  have h1 : (0xF00 : CoarseKey).toNat = 0xF00 := rfl
  have h2 : (0 : CoarseKey).toNat = 0 := rfl
  have h3 : (0xFFF : CoarseKey).toNat = 0xFFF := rfl
  rw [h1, h2, h3, rank_onePixel, ranks_of_empty_buckets.1, ranks_of_empty_buckets.2]
  refine ⟨by decide, by decide, by decide, congrArg SlotEntry.sel slot_of_red, ?_⟩
  have h := readSlot_slotMapTable oneBucket 0xFFF
  rw [h3, ranks_of_empty_buckets.2, if_neg (by decide)] at h
  exact congrArg SlotEntry.sel h

theorem witness_empty_buckets : (atPhase .filled 0 0).phase = .filled ∧
    (∀ k, k < 4096 → countOf (atPhase .filled 0 0).l4 k = 0) ∧ ∃ t, exec .rank (atPhase .filled 0 0) = .next t :=
  ⟨rfl, fun _ _ => rfl, _, rfl⟩

theorem witness_refine : (onePixel .ranked).phase = .ranked ∧ (onePixel .ranked).npix.toNat ≤ Config.limits.maxN :=
  ⟨rfl, Config.maxN_pos⟩

theorem witness_build : (onePixel .refined).phase = .refined := rfl

/-- Slot 0 of the one-pixel run counts a pixel, slot 191 none (`BuildAveragesEveryNonemptyBucket`,
`ChannelAveragesFitSixBits`, `EveryPixelIsCountedOnce`). -/
theorem witness_counted_slot : Inv Config.limits (onePixel .refined) ∧ RunInv (onePixel .refined) ∧
    (slotBucket (onePixel .refined) 0).count.toNat ≠ 0 ∧
    (slotBucket (onePixel .refined) 191).count.toNat = 0 ∧ afterRefine (onePixel .refined).phase := by
  rw [bucket_of_slot _ _ (by decide), bucket_of_slot _ _ (by decide)]
  exact ⟨witness_inv .refined (by decide), witness_runInv .refined, by decide, by decide, .inl rfl⟩

theorem witness_encode : Inv Config.limits (onePixel .built) ∧ (onePixel .built).phase = .built ∧
    0 < (onePixel .built).npix.toNat ∧ (0xF800 : Pixel) = cachedPixel (onePixel .built).pixCache 0 :=
  ⟨witness_inv .built (by decide), rfl, by decide, by decide⟩

/-- Pixel 0 of the valid one-pixel photo (`EveryIndexDecodesToItsColourBucket`, dedicated clause). -/
theorem witness_valid_photo : Inv Config.limits (onePixel .done) ∧ RunInv (onePixel .done) ∧ (onePixel .done).phase = .done ∧
    0 < (onePixel .done).npix.toNat ∧ (0xF800 : Pixel) = cachedPixel (onePixel .done).pixCache 0 :=
  ⟨witness_inv .done (by decide), witness_runInv .done, rfl, by decide, by decide⟩

/-! The shared clause needs 129 populated buckets: the first 129 pixels of program P3, one of each key from 0 to 128, of
which key 128 is the one left out. -/

/-- `p(n)` of program P3. -/
def p3Pixel (n : Nat) : Pixel := BitVec.ofNat 16 (n / 16 * 128 + n % 16 * 2)

/-- The Level-4 table after the 129 pixels. -/
def p3Buckets : Table Bucket :=
  (List.range 129).map fun n => (n, ⟨0, BitVec.ofNat 32 (4 * (n / 16)), BitVec.ofNat 32 (4 * (n % 16)), 1⟩)

/-- The run of the 129 pixels, 129 by 1, after `REFINE`. -/
def p3Refined : State :=
  { runOf .refined 129 1 ((List.range 129).map p3Pixel) with
    l4 := p3Buckets
    l2 := [(8, ⟨0, 32, 0, 1⟩)]
    dedKey := dedKeyTable (dedicatedKeys p3Buckets)
    slotMap := slotMapTable (dedicatedKeys p3Buckets) }

/-- The same run in `DONE`: slots 0 to 127 for keys 0 to 127, and the shared slot 136 for the pixel of key 128. -/
def p3Done : State :=
  { p3Refined with
    phase := .done
    palette := sharedRange p3Refined (dedicatedRange p3Refined [])
    qPhoto := (List.range 129).map fun n => (n, if n < 128 then BitVec.ofNat 8 (64 + n) else 200) }

theorem p3_cached : ∀ n, n < 129 → cachedPixel p3Done.pixCache n = p3Pixel n := by decide +kernel

theorem p3_key : ∀ n, n < 129 → k4 (p3Pixel n) = BitVec.ofNat 12 n := by decide +kernel

theorem p3_bucket_high {k : Nat} (h : 129 ≤ k) : readBucket p3Buckets k = Bucket.zero := by
  refine readEntry_of_forall_ne _ fun e he => ?_
  obtain ⟨n, hn, rfl⟩ := List.mem_map.1 he
  have := List.mem_range.1 hn
  simp only
  omega

theorem p3_count : ∀ k, countOf p3Buckets k = if k < 129 then 1 else 0 := by
  intro k
  by_cases h : k < 129
  · rw [if_pos h]
    exact (by decide +kernel : ∀ k, k < 129 → countOf p3Buckets k = 1) k h
  · rw [if_neg h, countOf, p3_bucket_high (by omega)]; rfl

theorem countP_lt (k : Nat) : ∀ n, (List.range n).countP (fun a => decide (a < k)) = min n k
  | 0 => by simp
  | n + 1 => by rw [List.range_succ, List.countP_append, countP_lt k n]; simp [List.countP_cons]; split; all_goals omega

/-- All populated buckets tie, so their order is that of their keys (R121). -/
theorem p3_rank {k : Nat} (h : k < 129) : rankOf p3Buckets k = k := by
  rw [rankOf_eq, List.countP_congr (q := fun a => decide (a < k)), countP_lt]
  · omega
  · intro a _
    simp only [before, p3_count, h, if_true]
    split <;> simp <;> omega

theorem p3_slot {n : Nat} (h : n < 129) : readSlot p3Done.slotMap (k4 (p3Pixel n)) =
    if n < 128 then ⟨true, BitVec.ofNat 7 n⟩ else SlotEntry.zero := by
  have e : (BitVec.ofNat 12 n).toNat = n := by rw [BitVec.toNat_ofNat]; omega
  have := readSlot_slotMapTable p3Buckets (BitVec.ofNat 12 n)
  rw [e, p3_rank h] at this
  rw [p3_key n h]
  exact this

/-- A stream of the run as a list of pixel numbers. -/
theorem p3_stream (q : Pixel → Bool) :
    streamPixels p3Done 129 q = ((List.range 129).filter fun n => q (p3Pixel n)).map p3Pixel := by
  rw [streamPixels, List.map_congr_left fun n hn => p3_cached n (List.mem_range.1 hn), List.filter_map]
  rfl

theorem p3_palette : p3Done.palette = sharedRange p3Refined (dedicatedRange p3Refined []) := by simp only [p3Done]

theorem p3_palette_wf : Memory.wf Colour.zero Config.numPal p3Done.palette :=
  p3_palette ▸ Memory.wf_sharedRange _ (Memory.wf_dedicatedRange _ (Memory.wf_nil _ _))

theorem p3_buckets_wf : Memory.wf Bucket.zero 129 p3Buckets := by decide +kernel

theorem p3_inv {lim : Config.Limits} (hw : 129 ≤ lim.maxW) (hh : 1 ≤ lim.maxH) : Inv lim p3Done := by
  have hn : 129 ≤ lim.maxN := le_trans hw (Nat.le_mul_of_pos_right _ hh)
  have wf : ∀ {α : Type} (d : α) (size : Nat) (t : Table α), Memory.wf d 129 t → 129 ≤ size → Memory.wf d size t :=
    fun d size t h hs => ⟨h.1, fun e he => ⟨lt_of_lt_of_le (h.2 e he).1 hs, (h.2 e he).2⟩⟩
  refine ⟨⟨wf _ _ _ p3_buckets_wf (by decide), ?_, Memory.wf_dedKeyTable _, Memory.wf_slotMapTable _,
    p3_palette_wf, wf _ _ _ ?_ hn, wf _ _ _ ?_ hn⟩, hw, hh, by decide, by decide +kernel, (fun h => by cases h), fun _ _ => by decide +kernel⟩
  · show Memory.wf _ _ [(8, _)]
    decide
  · decide +kernel
  · decide +kernel


theorem p3_slotBucket (slot : Nat) : slotBucket p3Done slot = slotBucket p3Refined slot := by
  simp only [slotBucket, p3Done]

theorem p3_runInv : RunInv p3Done := by
  have hnp : p3Done.npix.toNat = 129 := rfl
  have hpi : p3Done.pixIdx.toNat = 129 := by decide +kernel
  constructor
  · intro _ k
    rw [hpi, p3_stream, List.filter_congr (q := fun n => n == k.toNat)]
    · by_cases hk : k.toNat < 129
      · have h : ∀ m, m < 129 → readBucket p3Buckets m = addPixel (p3Pixel m) Bucket.zero ∧
            (List.range 129).filter (fun n => n == m) = [m] := by decide +kernel
        show HoldsTotals (readBucket p3Buckets k.toNat) _
        rw [(h _ hk).1, (h _ hk).2]
        constructor <;> simp [addPixel] <;> omega
      · have h : (List.range 129).filter (fun n => n == k.toNat) = [] := by
          rw [List.filter_eq_nil_iff]
          intro n hn
          have := List.mem_range.1 hn
          simp only [beq_iff_eq]
          omega
        show HoldsTotals (readBucket p3Buckets k.toNat) _
        rw [p3_bucket_high (by omega), h]
        exact ⟨rfl, rfl, rfl, rfl⟩
    · intro n hn
      have hn := List.mem_range.1 hn
      rw [p3_key n hn, Bool.eq_iff_iff, beq_iff_eq, beq_iff_eq]
      constructor
      · rintro rfl; rw [BitVec.toNat_ofNat]; omega
      · rintro rfl; simp
  · intro _ h; exact absurd (.inr (.inr rfl)) h
  · intro _ k
    have h := readSlot_slotMapTable p3Buckets k
    show if rankOf p3Buckets k.toNat < 128 then _ else _
    split
    · rename_i hlt
      rw [if_pos hlt] at h
      exact ⟨(readKey_dedKeyTable p3Buckets k.isLt hlt).trans (by simp), h⟩
    · rename_i hlt
      rwa [if_neg hlt] at h
  · intro _ j
    rw [hnp, p3_stream, List.filter_congr (q := fun n => n == 128 && (8 : FineKey) == j)]
    · have h : (List.range 129).filter (fun n => n == 128) = [128] := by decide +kernel
      show HoldsTotals (readBucket [(8, ⟨0, 32, 0, 1⟩)] j.toNat) _
      by_cases hj : (8 : FineKey) = j
      · subst hj
        simp only [beq_self_eq_true, Bool.and_true, h]
        constructor <;> decide
      · have : 8 ≠ j.toNat := fun e => hj (BitVec.eq_of_toNat_eq e)
        simp only [beq_eq_false_iff_ne.2 hj, Bool.and_false, List.filter_false, readBucket, readEntry, if_neg this]
        exact ⟨rfl, rfl, rfl, rfl⟩
    · intro n hn
      have hn := List.mem_range.1 hn
      rw [p3_slot hn]
      by_cases h : n < 128
      · have : (n == 128) = false := by simpa using by omega
        simp [h, this]
      · obtain rfl : n = 128 := by omega
        have : k2 (p3Pixel 128) = 8 := by decide
        simp [this]
  · intro _ h; exact absurd (.inr rfl) h
  · intro _ slot hs
    rw [p3_palette, p3_slotBucket, readColour_sharedRange, readColour_dedicatedRange]
    by_cases hc : (slotBucket p3Refined slot).count.toNat = 0
    · rw [meanColour, if_pos hc]
      simp [hc, readColour]
    · by_cases h : slot < 128
      · simp [hc, h, show ¬ 128 ≤ slot by omega]
      · simp [hc, show 128 ≤ slot by omega, hs]
  · intro _ n hn
    rw [hnp] at hn
    rw [p3_cached n hn, indexOf, p3_slot hn]
    refine ⟨n, (by decide +kernel : ∀ n, n < 129 → photoAddr 129 1 n = some n) n hn, ?_⟩
    exact (by decide +kernel : ∀ n, n < 129 → photoByte p3Done.qPhoto n =
      indexByte (if n < 128 then ⟨true, BitVec.ofNat 7 n⟩ else SlotEntry.zero) (p3Pixel n)) n hn

/-- The shared clause of `EveryIndexDecodesToItsColourBucket`: pixel 128 of the 129, with index 200, on every instance wide
enough to hold the run. -/
theorem witness_shared_index (hw : 129 ≤ Config.limits.maxW) : Inv Config.limits p3Done ∧ RunInv p3Done ∧
    p3Done.phase = .done ∧ 128 < p3Done.npix.toNat ∧ cachedPixel p3Done.pixCache 128 = 0x0400 ∧
    photoAddr p3Done.runW.toNat p3Done.runH.toNat 128 = some 128 ∧ (photoByte p3Done.qPhoto 128).toNat = 200 :=
  ⟨p3_inv hw Config.limits_legal.2.1.1, p3_runInv, rfl, by decide, by decide +kernel, by decide, by decide +kernel⟩

/-- An instance wide enough: that of 93_implementation_defined.md G1. -/
theorem witness_shared_index_instance : Inv g1 p3Done ∧ g1.legal := ⟨p3_inv (by decide) (by decide), by decide⟩

/-- An `ENCODE` that makes a photo valid, and a step that leaves it so (`ValidPhotoIsFinal`). -/
theorem witness_photo_final :
    nextMeets (step (issueNext (encode .encode) (atPhase .built 0 0))) (·.phase == .done) = true ∧
    nextMeets (step (issueNext (encode .nop) (atPhase .done 0 0))) (·.phase == .done) = true := by decide

/-- A sequence error in a phase that does not list the command, and one in a phase that does not list a pixel. -/
theorem witness_out_of_phase :
    nextMeets (exec .start (onePixel .ranked)) (·.err == 0b0010) = true ∧
    exec (.push 0) (onePixel .built) = .next { onePixel .built with err := 0b0010 } := ⟨rfl, rfl⟩

/-- `photo_addr` on the corners of a 3 by 2 photo (V7). -/
theorem witness_photo_addr : (0 < 3 * 2 ∧ photoAddr 3 2 0 = some 3) ∧ (5 < 3 * 2 ∧ photoAddr 3 2 5 = some 2) := by decide

/-! Read-out and errors. -/

theorem witness_register_holes : 11 ≤ (11 : BitVec 4).toNat ∧ 11 ≤ (15 : BitVec 4).toNat := by decide

/-- Every phase has a state (the `STATUS` clauses of `ControlRegisterReads`). -/
theorem witness_status_phases (p : Phase) : (atPhase p 0 0).phase = p := rfl

theorem witness_photo_reads : (onePixel .done).npix.toNat ≤ Config.limits.maxN ∧ (0 : BitVec 24).toNat < (onePixel .done).npix.toNat ∧
    ¬ (1 : BitVec 24).toNat < (onePixel .done).npix.toNat := ⟨Config.maxN_pos, by decide, by decide⟩

/-- A word that the debug windows show in `FILL` and not in `IDLE`. -/
theorem witness_debug_shown : (∀ v : Word, (fun v => v) v = if (atPhase .fill 0 0).phase = .idle then 0 else v) ∧
    ∀ v : Word, (fun _ => 0) v = if (atPhase .idle 0 0).phase = .idle then 0 else v := ⟨fun _ => rfl, fun _ => rfl⟩

theorem witness_mapped_read : (Instr.rdpal 191).isRead = true ∧ (Instr.rdpal 191).wellFormed = true ∧
    (∃ t, exec (.rdpal 191) (atPhase .done 0 0) = .next t) ∧ (∃ t, exec (.rdl4 0xFFF .count) (atPhase .fill 0 0) = .next t) :=
  ⟨by decide, by decide, ⟨_, rfl⟩, ⟨_, rfl⟩⟩

/-- A write and a read that newly set a flag (`ErrorsArePrecise`). -/
theorem witness_precise :
    nextMeets (step (issueNext (makeTxn true 1 5) State.reset)) (fun t => t.err &&& ~~~State.reset.err != 0) = true ∧
    nextMeets (step (issueNext (makeTxn false 0xB 0) State.reset)) (fun t => t.err &&& ~~~State.reset.err != 0) = true := by
  decide

/-- Each cause of `EveryErrorHasItsCause`: `SIZE`, `SEQ`, `ADDR`. -/
theorem witness_causes :
    exec .start (atPhase .idle 0xFFFFFFFF 0) = .next { atPhase .idle 0xFFFFFFFF 0 with err := 0b0001 } ∧
    exec .encode (atPhase .filled 0 0) = .next { atPhase .filled 0 0 with err := 0b0010 } ∧
    exec (.rdreg 11) State.reset = .next { State.reset with err := 0b1000, rdata := some 0 } := by
  refine ⟨?_, rfl, rfl⟩
  have h := witness_start.1.1
  show inPhases [.idle, .done] (startChecked Config.limits) (atPhase .idle 0xFFFFFFFF 0) = _
  rw [inPhases_of_mem (by decide), startChecked, if_pos (.inl h)]
  rfl

/-- A flag kept, one cleared by reset, one cleared by `CLRERR`. -/
theorem witness_sticky : (BitVec.getLsbD 0b1000#4 3 = true) ∧
    nextMeets (step { State.reset with err := 0b1000, hostIn := [.reset] }) (·.err == 0) = true ∧
    nextMeets (step (issueNext (encode (.clrerr 8)) { State.reset with err := 0b1000 })) (·.err == 0) = true := by decide

theorem witness_err_unread : ¬ readsErr (.rdreg 3) ∧ ∃ t, exec (.rdreg 3) State.reset = .next t := ⟨by decide, _, rfl⟩

/-- Contents that reset may leave and `State.reset` does not have. -/
def leftOver : State := { State.reset with l4 := oneBucket, qPhoto := [(0, 64)], pixCache := [(0, 1)] }

theorem leftOver_inv : Inv Config.limits leftOver := by
  have hn := Config.maxN_pos
  refine ⟨⟨?_, Memory.wf_nil _ _, Memory.wf_nil _ _, Memory.wf_nil _ _, Memory.wf_nil _ _,
    ⟨List.pairwise_singleton _ _, by simpa [leftOver] using hn⟩,
    ⟨List.pairwise_singleton _ _, by simpa [leftOver] using hn⟩⟩,
    Nat.zero_le _, Nat.zero_le _, rfl, Nat.le_refl _, ?_, ?_⟩
  · show Memory.wf _ _ oneBucket
    decide
  · intro h; cases h
  · intro h; exact absurd rfl h

/-- Two states that differ in what reset leaves unspecified, each able to step (`UnspecifiedContentsAreNeverObserved`). -/
theorem witness_same_to_host : Inv Config.limits State.reset ∧ Inv Config.limits leftOver ∧
    SameToHost State.reset leftOver ∧ State.reset ≠ leftOver ∧ step State.reset = .next State.reset := by
  refine ⟨witness_inv_empty_run .idle (by decide), leftOver_inv, ?_, by decide, rfl⟩
  constructor <;> intros <;> first | rfl | contradiction

end Sys2Proof.Tests
end

/-! ### The step with nothing issued, and on reset -/

namespace Sys2Proof.Machine

/-- An idle port leaves the core as it is (R212). -/
theorem step_hostIn_nil {s : State} (h : s.hostIn = []) : step s = .next s := by
  rw [step, admitInput_empty h]

/-- Of the state before a reset only the host's later inputs remain (R200, log entry 10). -/
theorem step_hostIn_reset {s : State} {rest : List HostInput} (h : s.hostIn = .reset :: rest) :
    step s = .next { State.reset with hostIn := rest } := by
  rw [step, admitInput_cons h]
  rfl

/-- Settles O6: the empty port and the reset input are two branches of the step. -/
theorem idleAndResetSteps : Obligations.IdleAndResetSteps :=
  fun _ => ⟨step_hostIn_nil, fun _ => step_hostIn_reset⟩

end Sys2Proof.Machine

/-! ### Illegal commands, unmapped locations, write-only registers -/

namespace Sys2Proof.Machine

/-- A transaction that decodes runs its meaning, with what the host issued before it still pending (R40, R60). -/
theorem step_issueNext_of_ok {t : Txn} {i : Instr} (h : decode t = .ok i) (s : State) :
    step (issueNext t s) = exec i { s with rdata := none } := by
  simp only [step, admitInput_cons (issueNext_hostIn t s), h]
  rfl

/-- A transaction that matches no row is turned away, with what the host issued before it still pending (R77). -/
theorem step_issueNext_of_error {t : Txn} {r : Reject} (h : decode t = .error r) (s : State) :
    step (issueNext t s) = .next (rejectTransaction r { s with rdata := none }) := by
  simp only [step, admitInput_cons (issueNext_hostIn t s), h]
  rfl

/-- `op` in 7 to 15 and a nonzero `wdata[31:4]` are one range of data: from 7 up (R62, R77). -/
theorem decodeWrite_cmd_of_ge_seven {d : Word} (h : 7 ≤ d.toNat) : decodeWrite 0 d = .error .illegalCommand := by
  rw [decodeWrite_eq, if_pos (by rfl), decodeCommand_eq]
  iterate 7 rw [if_neg (by omega)]

theorem decodeWrite_of_not_writable {a : Word} (d : Word) (h0 : a.toNat ≠ 0) (h2 : a.toNat ≠ 2) (h3 : a.toNat ≠ 3)
    (h4 : a.toNat ≠ 4) (h5 : a.toNat ≠ 5) : decodeWrite a d = .error .writeNotMapped := by
  rw [decodeWrite_eq, if_neg h0, if_neg h2, if_neg h3, if_neg h4, if_neg h5]

/-- The register and palette windows decode past their last mapped location; outside every window nothing does
(R42, R64). -/
theorem decodeRead_of_not_readMapped {a : Word} (h : ¬ readMapped a.toNat) :
    (∃ i, decodeRead a = .ok i ∧ i.wellFormed = false) ∨ decodeRead a = .error .readNotMapped := by
  simp only [readMapped] at h
  rw [decodeRead_eq]
  by_cases hreg : a.toNat / 16 = 0
  · refine .inl ⟨_, if_pos hreg, ?_⟩
    simp only [Instr.wellFormed, BitVec.extractLsb'_toNat, decide_eq_false_iff_not]
    omega
  by_cases hpal : a.toNat / 256 = 1
  · refine .inl ⟨_, (if_neg hreg).trans (if_pos hpal), ?_⟩
    simp only [Instr.wellFormed, BitVec.extractLsb'_toNat, decide_eq_false_iff_not]
    omega
  · right
    rw [if_neg hreg, if_neg hpal]
    iterate 5 rw [if_neg (by omega)]

/-- An instruction that names an unmapped location is a read of a register or of a palette slot, and raises `ADDR`
(R160, R161, R167). -/
theorem exec_of_not_wellFormed {i : Instr} (h : i.wellFormed = false) (s : State) :
    exec i s = .next (raiseErrRead .addr s) := by
  cases i with
  | rdreg a =>
    simp only [exec, execRdreg, readRegisterOn, (registerWord_eq_none_iff _ a s).2 h]
  | rdpal slot =>
    exact if_pos (by simpa [Instr.wellFormed] using h)
  | _ => cases h

/-- `CMD` and `PIXEL_IN` read as 0 (R160). -/
theorem exec_rdreg_writeOnly {a : BitVec 4} (h : a.toNat = 0 ∨ a.toNat = 5) (s : State) :
    exec (.rdreg a) s = .next (respond 0 s) := by
  have hword : registerWord Config.limits a s = some 0 := by
    rcases h with h | h <;> simp only [registerWord, h]
  simp only [exec, execRdreg, readRegisterOn, hword]

/-- R52, R77: a read of a location that is not mapped returns 0 and raises `ADDR`, whether it decodes or not. -/
theorem step_read_of_not_readMapped {a : Word} (h : ¬ readMapped a.toNat) (d : Word) (s : State) :
    step (issueNext (makeTxn false a d) s) = .next (raiseErrRead .addr { s with rdata := none }) := by
  obtain ⟨i, hi, hwf⟩ | herr := decodeRead_of_not_readMapped h
  · rw [step_issueNext_of_ok ((decode_read a d).trans hi), exec_of_not_wellFormed hwf]
  · exact step_issueNext_of_error ((decode_read a d).trans herr) s

/-- A read of `CMD` or `PIXEL_IN` returns 0 and raises nothing (R160). -/
theorem step_read_writeOnly {a : Word} (h : a.toNat = 0 ∨ a.toNat = 5) (d : Word) (s : State) :
    step (issueNext (makeTxn false a d) s) = .next (respond 0 { s with rdata := none }) := by
  have hdec : decodeRead a = .ok (.rdreg (a.extractLsb' 0 4)) := by
    rw [decodeRead_eq, if_pos (by omega)]
  rw [step_issueNext_of_ok ((decode_read a d).trans hdec), exec_rdreg_writeOnly]
  rw [BitVec.extractLsb'_toNat]
  omega

/-- Settles O9: the two writes are words that the decoder rejects; an unmapped read is rejected or names a hole of its
window; the write-only registers have their own arms of the read. -/
theorem illegalAndUnmappedTransactions : Obligations.IllegalAndUnmappedTransactions := by
  intro s a d
  refine ⟨fun hd => ?_, fun h0 h2 h3 h4 h5 => ?_, fun ha => ?_, fun ha => ?_⟩
  · exact step_issueNext_of_error ((decode_write 0 d).trans (decodeWrite_cmd_of_ge_seven hd)) s
  · exact step_issueNext_of_error ((decode_write a d).trans (decodeWrite_of_not_writable d h0 h2 h3 h4 h5)) s
  · exact step_read_of_not_readMapped ha d s
  · exact step_read_writeOnly ha d s

end Sys2Proof.Machine

/-! ### The keys and rescaled channels of a pixel as numbers -/

namespace Sys2Proof.Machine

/-- A field of a bit vector is a remainder of a quotient. -/
theorem toNat_field {n : Nat} (x : BitVec n) (lo k : Nat) :
    (x.extractLsb' lo k).toNat = x.toNat / 2 ^ lo % 2 ^ k := by
  rw [BitVec.extractLsb'_toNat, Nat.shiftRight_eq_div_pow]

/-- The uppermost field of a bit vector is a quotient. -/
theorem toNat_upperField {n : Nat} (x : BitVec n) (lo k : Nat) (h : lo + k = n) :
    (x.extractLsb' lo k).toNat = x.toNat / 2 ^ lo := by
  rw [toNat_field, Nat.mod_eq_of_lt]
  rw [Nat.div_lt_iff_lt_mul (by positivity), ← Nat.pow_add, Nat.add_comm, h]
  exact x.isLt

/-- A field of a field is a field. -/
theorem extract_extract {n : Nat} (x : BitVec n) {lo w k m : Nat} (h : k + m ≤ w) :
    (x.extractLsb' lo w).extractLsb' k m = x.extractLsb' (lo + k) m := by
  ext i hi
  simp [show k + i < w by omega, Nat.add_assoc]

theorem toNat_concat_three {n m k : Nat} (a : BitVec n) (b : BitVec m) (c : BitVec k) :
    (a ++ b ++ c).toNat = a.toNat * 2 ^ (m + k) + b.toNat * 2 ^ k + c.toNat := by
  rw [toNat_concat, toNat_concat, Nat.add_mul, Nat.mul_assoc, ← Nat.pow_add]

/-- A five-bit channel is rescaled to six bits by doubling it (R68). -/
theorem toNat_concat_zero (c : BitVec 5) : (c ++ 0#1).toNat = 2 * c.toNat := by
  rw [toNat_concat, BitVec.toNat_ofNat]
  omega

theorem k4_toNat (px : Pixel) :
    (k4 px).toNat = px.toNat / 4096 * 256 + px.toNat / 128 % 16 * 16 + px.toNat / 2 % 16 := by
  rw [k4, toNat_concat_three, toNat_upperField px 12 4 rfl, toNat_field, toNat_field]
  simp only [Nat.reducePow, Nat.reduceAdd]

theorem k2_toNat (px : Pixel) :
    (k2 px).toNat = px.toNat / 16384 * 16 + px.toNat / 512 % 4 * 4 + px.toNat / 8 % 4 := by
  rw [k2, toNat_concat_three, toNat_upperField px 14 2 rfl, toNat_field, toNat_field]
  simp only [Nat.reducePow, Nat.reduceAdd]

theorem r6_toNat (px : Pixel) : (r6 px).toNat = 2 * (px.toNat / 2048) := by
  rw [r6, toNat_concat_zero, toNat_upperField px 11 5 rfl]
  simp only [Nat.reducePow]

theorem g6_toNat (px : Pixel) : (g6 px).toNat = px.toNat / 32 % 64 := toNat_field px 5 6

theorem b6_toNat (px : Pixel) : (b6 px).toNat = 2 * (px.toNat % 32) := by
  rw [b6, toNat_concat_zero, toNat_field, Nat.pow_zero, Nat.div_one]
  simp only [Nat.reducePow]

/-- The Level-2 key is made of the upper two bits of each part of the Level-4 key, so all pixels of one Level-4 bucket
have the same Level-2 key (R67). -/
theorem k2_eq_fields_of_k4 (px : Pixel) :
    k2 px = (k4 px).extractLsb' 10 2 ++ (k4 px).extractLsb' 6 2 ++ (k4 px).extractLsb' 2 2 := by
  have red : (k4 px).extractLsb' 10 2 = px.extractLsb' 14 2 := by
    rw [k4, extract_above _ _ 6 2, extract_above _ _ 2 2, extract_extract px (by decide)]
  have green : (k4 px).extractLsb' 6 2 = px.extractLsb' 9 2 := by
    rw [k4, extract_above _ _ 2 2, extract_within _ _ 2 2 (by decide), extract_extract px (by decide)]
  have blue : (k4 px).extractLsb' 2 2 = px.extractLsb' 3 2 := by
    rw [k4, extract_within _ _ 2 2 (by decide), extract_extract px (by decide)]
  rw [red, green, blue, k2]

theorem k2_toNat_of_k4 (px : Pixel) :
    (k2 px).toNat = (k4 px).toNat / 1024 * 16 + (k4 px).toNat / 64 % 4 * 4 + (k4 px).toNat / 4 % 4 := by
  rw [k2_eq_fields_of_k4, toNat_concat_three, toNat_upperField (k4 px) 10 2 rfl, toNat_field, toNat_field]
  simp only [Nat.reducePow, Nat.reduceAdd]

/-- Settles O19: each key and channel is a concatenation of fields of the pixel, and the Level-2 key one of fields of
the Level-4 key; a field is a remainder of a quotient. -/
theorem pixelKeysAndChannels : Obligations.PixelKeysAndChannels := fun px =>
  ⟨k4_toNat px, k2_toNat px, r6_toNat px, g6_toNat px, b6_toNat px, k2_toNat_of_k4 px⟩

end Sys2Proof.Machine

/-! ### Run control: the writes that any phase admits -/

namespace Sys2Proof.Machine

theorem decodeWrite_cmd_nop : decodeWrite 0 0 = .ok .nop := rfl

theorem decodeWrite_cmd_abort : decodeWrite 0 6 = .ok .abort := rfl

theorem decodeWrite_err (d : Word) : decodeWrite 2 d = .ok (.clrerr (d.extractLsb' 0 4)) := rfl

theorem decodeWrite_width (d : Word) : decodeWrite 3 d = .ok (.setw d) := rfl

theorem decodeWrite_height (d : Word) : decodeWrite 4 d = .ok (.seth d) := rfl

/-- Settles O10: the decoder passes the data of a register write on whole, and the three meanings have no phase check. -/
theorem nopSetwSethComplete : Obligations.NopSetwSethComplete := fun _ v =>
  ⟨(decode_write 0 0).trans decodeWrite_cmd_nop, rfl,
    (decode_write 3 v).trans (decodeWrite_width v), rfl,
    (decode_write 4 v).trans (decodeWrite_height v), rfl⟩

theorem getLsbD_clearFlags (m e : BitVec 4) {b : Nat} (hb : b < 4) :
    (clearFlags m e).getLsbD b = (e.getLsbD b && !m.getLsbD b) := by
  simp [clearFlags, hb]

/-- Settles O11: `ERR and (not m)`, bit by bit. -/
theorem clrerrClearsChosenFlags : Obligations.ClrerrClearsChosenFlags := fun s d m =>
  ⟨(decode_write 2 d).trans (decodeWrite_err d), { s with err := clearFlags m s.err }, rfl,
    fun _ hb => getLsbD_clearFlags m s.err hb, rfl⟩

end Sys2Proof.Machine

/-! ### Run control: `START` -/

namespace Sys2Proof.Machine

/-- Dimensions within the maxima have an exact 32-bit product, of at most `MAX_N` (R4, R94). -/
theorem toNat_mul_of_within_limits {w h : Word} (hw : w.toNat ≤ Config.limits.maxW)
    (hh : h.toNat ≤ Config.limits.maxH) :
    (w * h).toNat = w.toNat * h.toNat ∧ (w * h).toNat ≤ Config.limits.maxN := by
  have hle : w.toNat * h.toNat ≤ Config.limits.maxN := Nat.mul_le_mul hw hh
  have hexact : (w * h).toNat = w.toNat * h.toNat := by
    rw [BitVec.toNat_mul, Nat.mod_eq_of_lt]
    have := Config.maxN_le
    omega
  exact ⟨hexact, hexact ▸ hle⟩

theorem exec_start_of_admitted {s : State} (h : s.phase = .idle ∨ s.phase = .done) :
    exec .start s = startChecked Config.limits s :=
  inPhases_of_mem (by simpa using h)

theorem startChecked_of_oversize {lim : Config.Limits} {s : State}
    (h : lim.maxW < s.width.toNat ∨ lim.maxH < s.height.toNat) :
    startChecked lim s = .next (raiseErr .size s) := if_pos h

theorem startChecked_of_fits {lim : Config.Limits} {s : State} (hw : s.width.toNat ≤ lim.maxW)
    (hh : s.height.toNat ≤ lim.maxH) : startChecked lim s = .next (beginRun s) := if_neg (by omega)

/-- A run starts in `FILL` or, when it has no pixel, in `FILLED` (R94). -/
theorem beginRun_phase_cases (s : State) : (beginRun s).phase = .fill ∨ (beginRun s).phase = .filled := by
  rw [beginRun_phase]
  split
  · exact .inl rfl
  · exact .inr rfl

/-- Settles O13: the size check has two branches, and the second begins a run. -/
theorem startChecksSize : Obligations.StartChecksSize := by
  intro s hp
  rw [exec_start_of_admitted hp]
  exact ⟨startChecked_of_oversize, fun hw hh =>
    ⟨beginRun s, startChecked_of_fits hw hh, beginRun_err s, beginRun_phase_cases s⟩⟩

/-- Settles O14: `beginRun` field by field; the two phases and `NPIX` are those of the exact product. -/
theorem startBeginsRun : Obligations.StartBeginsRun := by
  intro s hp hw hh
  obtain ⟨hexact, hle⟩ := toNat_mul_of_within_limits hw hh
  have hphase : (beginRun s).phase = if 1 ≤ s.width.toNat * s.height.toNat then .fill else .filled := by
    rw [beginRun_phase, hexact]
  refine ⟨beginRun s, (exec_start_of_admitted hp).trans (startChecked_of_fits hw hh),
    beginRun_runW s, beginRun_runH s, hexact, hle, beginRun_pixIdx s, ?_, ?_, ?_, ?_, ?_, hphase,
    beginRun_err s, beginRun_width s, beginRun_height s, beginRun_pixCache s, beginRun_qPhoto s,
    beginRun_hostIn s, beginRun_rdata s⟩
  · exact readEntry_nil Bucket.zero
  · exact readEntry_nil Bucket.zero
  · exact fun k => readEntry_nil SlotEntry.zero k.toNat
  · exact readEntry_nil 0
  · exact readEntry_nil Colour.zero

end Sys2Proof.Machine

/-! ### Run control: `ABORT` and the windows it hides -/

namespace Sys2Proof.Machine

/-- The instruction reads an existing location of a table, of the palette or of the photo: every read but those of the
control registers (R42). -/
def readsWindow (i : Instr) : Prop := i.isRead = true ∧ i.wellFormed = true ∧ ∀ a, i ≠ .rdreg a

/-- In `IDLE` every read gate is closed (R161 to R166). -/
theorem exec_readsWindow_of_idle {i : Instr} (hi : readsWindow i) {s : State} (hs : s.phase = .idle) :
    exec i s = .next (respond 0 s) := by
  obtain ⟨hread, hwf, hreg⟩ := hi
  have hdebug (v : Word) : debugRead v s = .next (respond 0 s) := by rw [debugRead, if_pos hs]
  have hdone : s.phase ≠ .done := by simp [hs]
  cases i with
  | rdreg a => exact absurd rfl (hreg a)
  | rdpal slot =>
    have hslot : ¬ 192 ≤ slot.toNat := by simpa [Instr.wellFormed] using hwf
    exact (if_neg hslot).trans (if_neg hdone)
  | rdphoto n => exact if_neg fun h => hdone h.1
  | rdded _ => exact hdebug _
  | rdl2 _ _ => exact hdebug _
  | rdslot _ => exact hdebug _
  | rdl4 _ _ => exact hdebug _
  | _ => cases hread

/-- The mapped word numbers from `0x100` up are the windows of the palette, the tables and the photo (R42, R64). -/
theorem decodeRead_of_window {a : Word} (hmap : readMapped a.toNat) (ha : 0x100 ≤ a.toNat) :
    ∃ i, decodeRead a = .ok i ∧ readsWindow i := by
  rw [decodeRead_eq, if_neg (by omega)]
  rcases hmap with h | h | h | h | h | h | h
  · omega
  · have hslot : (a.extractLsb' 0 8).toNat < 192 := by
      rw [toNat_field]
      omega
    exact ⟨_, if_pos (by omega), rfl, decide_eq_true hslot, nofun⟩
  · rw [if_neg (by omega), if_pos (by omega)]
    exact ⟨_, rfl, rfl, rfl, nofun⟩
  · rw [if_neg (by omega), if_neg (by omega), if_pos (by omega)]
    exact ⟨_, rfl, rfl, rfl, nofun⟩
  · iterate 3 rw [if_neg (by omega)]
    rw [if_pos (by omega)]
    exact ⟨_, rfl, rfl, rfl, nofun⟩
  · iterate 4 rw [if_neg (by omega)]
    rw [if_pos (by omega)]
    exact ⟨_, rfl, rfl, rfl, nofun⟩
  · iterate 5 rw [if_neg (by omega)]
    rw [if_pos (by omega)]
    exact ⟨_, rfl, rfl, rfl, nofun⟩

/-- In `IDLE` a read of any window answers 0 and changes nothing (R161 to R166). -/
theorem step_read_window_of_idle {s : State} (hs : s.phase = .idle) {a : Word} (hmap : readMapped a.toNat)
    (ha : 0x100 ≤ a.toNat) (d : Word) : step (issueNext (makeTxn false a d) s) = .next (respond 0 s) := by
  obtain ⟨i, hdec, hi⟩ := decodeRead_of_window hmap ha
  exact (step_issueNext_of_ok ((decode_read a d).trans hdec) s).trans
    (exec_readsWindow_of_idle (s := { s with rdata := none }) hi hs)

theorem exec_push_of_ne_fill {s : State} (hs : s.phase ≠ .fill) (px : Pixel) :
    exec (.push px) s = .next (raiseErr .seq s) :=
  inPhases_of_not_mem (by simpa using hs)

/-- Settles O12: `ABORT` only writes the phase, and `IDLE` closes the gate of every window and of `PUSH`. -/
theorem abortHidesTheRun : Obligations.AbortHidesTheRun := by
  rintro s t rfl
  refine ⟨(decode_write 0 6).trans decodeWrite_cmd_abort, rfl, fun a hmap ha => ?_, fun px => ?_⟩
  · exact step_read_window_of_idle rfl hmap ha 0
  · exact exec_push_of_ne_fill (by decide : Phase.idle ≠ .fill) px

end Sys2Proof.Machine

/-! ### Run control: the phase-transition table -/

namespace Sys2Proof.Machine

/-- A read keeps the phase, whether it answers data or raises `ADDR` (R46, R184). -/
theorem exec_read_phase {i : Instr} {s t : State} (hi : i.isRead = true) (h : exec i s = .next t) :
    t.phase = s.phase := by
  obtain ⟨-, v, rfl⟩ | ⟨-, rfl⟩ := exec_read_next hi h
  · exact respond_phase v s
  · exact raiseErrRead_phase .addr s

/-- A row of the table (R99): in the phases it lists its effect, in every other `SEQ` and nothing else. -/
theorem row_of_admitted_or_seq {s t : State} {listed effect : Prop} [Decidable listed]
    (h : listed ∧ effect ∨ ¬ listed ∧ t = raiseErr .seq s) : if listed then effect else onlySeq s t := by
  obtain ⟨hlisted, heffect⟩ | ⟨hnot, hseq⟩ := h
  · rwa [if_pos hlisted]
  · rwa [if_neg hnot]

/-- An accepted `START` goes to `FILL` or, without pixels, to `FILLED`; a refused one keeps the phase (R93, R94). -/
theorem exec_start_row {s t : State} (h : exec .start s = .next t) :
    if s.phase = .idle ∨ s.phase = .done then
      if s.width.toNat ≤ Config.limits.maxW ∧ s.height.toNat ≤ Config.limits.maxH then
        if 1 ≤ s.width.toNat * s.height.toNat then t.phase = .fill else t.phase = .filled
      else t.phase = s.phase
    else onlySeq s t := by
  refine row_of_admitted_or_seq ?_
  obtain ⟨hp, ⟨hbig, rfl⟩ | ⟨hw, hh, rfl⟩⟩ | ⟨hp, hseq⟩ := execStart_next h
  · refine .inl ⟨hp, ?_⟩
    rw [if_neg (by omega), raiseErr_phase]
  · refine .inl ⟨hp, ?_⟩
    rw [if_pos ⟨hw, hh⟩, beginRun_phase, (toNat_mul_of_within_limits hw hh).1]
    split <;> rfl
  · exact .inr ⟨not_or.2 hp, hseq⟩

/-- With a pixel still due, `PIX_IDX + 1` does not wrap. -/
theorem toNat_pixIdx_succ {s : State} (h : s.pixIdx.toNat < s.npix.toNat) :
    (s.pixIdx + 1).toNat = s.pixIdx.toNat + 1 := by
  have hlt : s.pixIdx.toNat + 1 < 2 ^ 32 := by omega
  exact BitVec.toNat_add_of_lt hlt

/-- A `PUSH` in `FILL` stays there until the pixel that makes `PIX_IDX` equal to `NPIX` (R112). -/
theorem exec_push_row {px : Pixel} {s t : State} (hinv : Inv Config.limits s) (h : exec (.push px) s = .next t) :
    if s.phase = .fill then
      t.pixIdx.toNat = s.pixIdx.toNat + 1 ∧
      (t.pixIdx.toNat < t.npix.toNat ∧ t.phase = .fill ∨ t.pixIdx = t.npix ∧ t.phase = .filled)
    else onlySeq s t := by
  refine row_of_admitted_or_seq ?_
  obtain ⟨hp, -, rfl⟩ | hseq := execPush_next h
  · have hdue := hinv.pixel_due hp
    have hsucc := toNat_pixIdx_succ hdue
    refine .inl ⟨hp, hsucc, ?_⟩
    by_cases hlast : s.pixIdx + 1 = s.npix
    · exact .inr ⟨hlast, if_pos hlast⟩
    · have hne : (s.pixIdx + 1).toNat ≠ s.npix.toNat := fun e => hlast (BitVec.eq_of_toNat_eq e)
      exact .inl ⟨show (s.pixIdx + 1).toNat < s.npix.toNat by omega, (if_neg hlast).trans hp⟩
  · exact .inr hseq

theorem exec_rank_row {s t : State} (h : exec .rank s = .next t) :
    if s.phase = .filled then t.phase = .ranked else onlySeq s t :=
  row_of_admitted_or_seq <| (execRank_next h).imp_left fun ⟨hp, ht⟩ => ⟨hp, congrArg State.phase ht⟩

theorem exec_refine_row {s t : State} (h : exec .refine s = .next t) :
    if s.phase = .ranked then t.phase = .refined else onlySeq s t :=
  row_of_admitted_or_seq <| (execRefine_next h).imp_left fun ⟨hp, _, _, ht⟩ => ⟨hp, congrArg State.phase ht⟩

theorem exec_build_row {s t : State} (h : exec .build s = .next t) :
    if s.phase = .refined then t.phase = .built else onlySeq s t :=
  row_of_admitted_or_seq <| (execBuild_next h).imp_left fun ⟨hp, ht⟩ => ⟨hp, congrArg State.phase ht⟩

theorem exec_encode_row {s t : State} (h : exec .encode s = .next t) :
    if s.phase = .built then t.phase = .done else onlySeq s t :=
  row_of_admitted_or_seq <| (execEncode_next h).imp_left fun ⟨hp, _, _, ht⟩ => ⟨hp, congrArg State.phase ht⟩

/-- Settles O15: one lemma for each row with a phase check; the invariant serves the row of `PUSH` alone. -/
theorem phaseTransitionTable : Obligations.PhaseTransitionTable := by
  intro s t i hinv h
  cases i with
  | nop =>
    obtain rfl := execNop_next h
    rfl
  | start => exact exec_start_row h
  | rank => exact exec_rank_row h
  | refine => exact exec_refine_row h
  | build => exact exec_build_row h
  | encode => exact exec_encode_row h
  | abort =>
    obtain rfl := execAbort_next h
    rfl
  | push px => exact exec_push_row hinv h
  | setw v =>
    obtain rfl := execSetw_next h
    rfl
  | seth v =>
    obtain rfl := execSeth_next h
    rfl
  | clrerr m =>
    obtain rfl := execClrerr_next h
    rfl
  | rdreg a => exact exec_read_phase rfl h
  | rdpal slot => exact exec_read_phase rfl h
  | rdded slot => exact exec_read_phase rfl h
  | rdl2 j f => exact exec_read_phase rfl h
  | rdslot k => exact exec_read_phase rfl h
  | rdl4 k f => exact exec_read_phase rfl h
  | rdphoto n => exact exec_read_phase rfl h

end Sys2Proof.Machine

/-! ### The Level-4 bucketer: `PUSH` -/

namespace Sys2Proof.Machine

theorem exec_push_of_admitted {s : State} (hp : s.phase = .fill) (hi : s.pixIdx.toNat < Config.limits.maxN) (px : Pixel) :
    exec (.push px) s = .next { s with
      l4 := accumulate s.l4 (k4 px).toNat px
      pixCache := writeEntry 0 s.pixCache s.pixIdx.toNat px
      pixIdx := s.pixIdx + 1
      phase := phaseAfterPush s } := by
  have hrun : exec (.push px) s = pushPixel Config.limits px s := inPhases_of_mem (by simpa using hp)
  rw [hrun, pushPixel, cacheWrite_of_lt hi]

/-- The keys of a table are distinct as numbers, so an accumulation changes the bucket of one key (R111, R131). -/
theorem readBucket_accumulate_key {n : Nat} (t : Table Bucket) (k j : BitVec n) (px : Pixel) :
    readBucket (accumulate t k.toNat px) j.toNat =
      if j = k then addPixel px (readBucket t j.toNat) else readBucket t j.toNat := by
  rw [readBucket_accumulate]
  by_cases hj : j = k
  · rw [if_pos (congrArg BitVec.toNat hj), if_pos hj, hj]
  · rw [if_neg fun h => hj (BitVec.eq_of_toNat_eq h), if_neg hj]

/-- The addends of an accumulation as arithmetic on the pixel (R68, R111). -/
theorem addPixel_eq_arithmetic (px : Pixel) (b : Bucket) : addPixel px b =
    { sumR := b.sumR + BitVec.ofNat 32 (2 * (px.toNat / 2048))
      sumG := b.sumG + BitVec.ofNat 32 (px.toNat / 32 % 64)
      sumB := b.sumB + BitVec.ofNat 32 (2 * (px.toNat % 32))
      count := b.count + 1 } := by
  rw [← r6_toNat, ← g6_toNat, ← b6_toNat]
  simp only [addPixel, BitVec.ofNat_toNat]

/-- Settles O17: the state after an admitted `PUSH`, read bucket by bucket and pixel by pixel. -/
theorem pushCountsAndCaches : Obligations.PushCountsAndCaches := by
  intro s px hp hi
  refine ⟨_, exec_push_of_admitted hp hi px, fun k => ?_, fun n => ?_, rfl, ?_, rfl⟩
  · rw [readBucket_accumulate_key, addPixel_eq_arithmetic]
  · exact cachedPixel_write s.pixCache s.pixIdx.toNat n px
  · simp only [phaseAfterPush, hp]

/-- The photo of a run has no more pixels than `PIXCACHE` has elements (R4, R13, R15). -/
theorem Inv.npix_le_maxN {lim : Config.Limits} {s : State} (h : Inv lim s) : s.npix.toNat ≤ lim.maxN :=
  h.npix_eq.trans_le (Nat.mul_le_mul h.runW_le h.runH_le)

theorem length_streamPixels_le (s : State) (m : Nat) (p : Pixel → Bool) : (streamPixels s m p).length ≤ m := by
  refine (List.length_filter_le p _).trans_eq ?_
  rw [List.length_map, List.length_range]

/-- A channel is below 64, so its sum over a list of pixels is at most 63 times the length (R6). -/
theorem sum_channel_le (c : Pixel → Channel) (ps : List Pixel) :
    (ps.map fun px => (c px).toNat).sum ≤ ps.length * 63 := by
  have hc : ∀ x ∈ ps.map fun px => (c px).toNat, x ≤ 63 := by
    simp only [List.mem_map]
    rintro _ ⟨px, -, rfl⟩
    exact Nat.le_of_lt_succ (c px).isLt
  simpa using List.sum_le_card_nsmul _ 63 hc

/-- One channel more does not carry out of an accumulator that holds the total of at most `MAX_N` pixels (R6). -/
theorem toNat_add_channel {x : Word} {c : Pixel → Channel} {ps : List Pixel}
    (hx : x.toNat = (ps.map fun px => (c px).toNat).sum) (hlen : ps.length ≤ Config.limits.maxN) (d : Channel) :
    (x + d.setWidth 32).toNat = x.toNat + d.toNat := by
  have hd : (d.setWidth 32).toNat = d.toNat := BitVec.toNat_setWidth_of_le (by decide)
  have hsum := sum_channel_le c ps
  have hmax := Config.maxN_le
  have hlt := d.isLt
  rw [BitVec.toNat_add_of_lt (by omega), hd]

/-- To a bucket with the totals of at most `MAX_N` pixels the four additions are exact (R6, R111, R131). -/
theorem HoldsTotals.addPixel_exact {b : Bucket} {ps : List Pixel} (h : HoldsTotals b ps)
    (hlen : ps.length ≤ Config.limits.maxN) (px : Pixel) :
    (addPixel px b).sumR.toNat = b.sumR.toNat + (r6 px).toNat ∧
    (addPixel px b).sumG.toNat = b.sumG.toNat + (g6 px).toNat ∧
    (addPixel px b).sumB.toNat = b.sumB.toNat + (b6 px).toNat ∧
    (addPixel px b).count.toNat = b.count.toNat + 1 := by
  have hcount : b.count.toNat + 1 < 2 ^ 32 := by
    have := Config.maxN_le
    have := h.count
    omega
  exact ⟨toNat_add_channel h.sumR hlen _, toNat_add_channel h.sumG hlen _, toNat_add_channel h.sumB hlen _,
    BitVec.toNat_add_of_lt hcount⟩

/-- Settles O18: by R24 the bucket holds the totals of pixels already pushed, which are fewer than `MAX_N`. -/
theorem pushAdditionsAreExact : Obligations.PushAdditionsAreExact := by
  intro s t px hinv hrun hp h
  obtain ⟨-, -, rfl⟩ | ⟨hne, -⟩ := execPush_next h
  · have hlen : (streamPixels s s.pixIdx.toNat fun p => k4 p == k4 px).length ≤ Config.limits.maxN :=
      ((length_streamPixels_le ..).trans hinv.pixIdx_le).trans hinv.npix_le_maxN
    have hread := readBucket_accumulate_key s.l4 (k4 px)
    obtain ⟨hr, hg, hb, hcount⟩ := (hrun.coarse (by simp [hp]) (k4 px)).addPixel_exact hlen px
    rw [(hread (k4 px) px).trans (if_pos rfl)]
    exact ⟨hr, hg, hb, hcount, fun k hk => (hread k px).trans (if_neg hk)⟩
  · exact absurd hp hne

end Sys2Proof.Machine

/-! ### The bucket ranker: `RANK` -/

namespace Sys2Proof.Machine

theorem exec_rank_of_filled {s : State} (hp : s.phase = .filled) :
    exec .rank s = .next { s with
      dedKey := dedKeyTable (dedicatedKeys s.l4), slotMap := slotMapTable (dedicatedKeys s.l4), phase := .ranked } :=
  inPhases_of_mem (by simpa using hp)

/-- Tables written from the sorted keys record the ranking of the Level-4 buckets (R121, R122). -/
theorem recordsRanking_of_sorted_tables {s : State} (hded : s.dedKey = dedKeyTable (dedicatedKeys s.l4))
    (hslot : s.slotMap = slotMapTable (dedicatedKeys s.l4)) : RecordsRanking s := by
  intro k
  rw [hded, hslot, readSlot_slotMapTable]
  split
  · rename_i hrank
    have hkey := readKey_dedKeyTable s.l4 k.isLt hrank
    rw [BitVec.ofNat_toNat, BitVec.setWidth_eq] at hkey
    exact ⟨hkey, rfl⟩
  · rfl

theorem exec_rank_recordsRanking {s t : State} (hp : s.phase = .filled) (h : exec .rank s = .next t) :
    RecordsRanking t := by
  obtain ⟨-, rfl⟩ | ⟨hne, -⟩ := execRank_next h
  · exact recordsRanking_of_sorted_tables rfl rfl
  · exact absurd hp hne

/-- Settles O20: the sort puts each key in the place of its rank, and the tables are written from those places. -/
theorem rankRecordsRankingOrder : Obligations.RankRecordsRankingOrder := fun _ hp =>
  have hexec := exec_rank_of_filled hp
  ⟨_, hexec, exec_rank_recordsRanking hp hexec, rfl⟩

end Sys2Proof.Machine

/-! ### The refinement bucketer: `REFINE` -/

namespace Sys2Proof.Machine

/-- In `RANKED` with a cache for every pixel of the run, pass 2 completes and only `L2` and the phase are new (R130,
R131). -/
theorem exec_refine_of_ranked {s : State} (hp : s.phase = .ranked) (hn : s.npix.toNat ≤ Config.limits.maxN) :
    ∃ l2, exec .refine s = .next { s with l2 := l2, phase := .refined } ∧
      ∀ j : FineKey, readBucket l2 j.toNat =
        addPixels (streamPixels s s.npix.toNat fun px => !(readSlot s.slotMap (k4 px)).sel && k2 px == j)
          (readBucket s.l2 j.toNat) := by
  obtain ⟨l2, hwalk, -, hl2⟩ := refineWalk_completes Config.limits s s.npix.toNat hn
  have hrun : exec .refine s = refinePass Config.limits s := inPhases_of_mem (by simpa using hp)
  exact ⟨l2, by rw [hrun, refinePass, hwalk], hl2⟩

/-- A zero bucket ends with the exact totals of at most `MAX_N` pixels added to it: no addition on the way carries out
(R6, R17). -/
theorem holdsTotals_addPixels_zero {ps : List Pixel} (hlen : ps.length ≤ Config.limits.maxN) :
    HoldsTotals (addPixels ps Bucket.zero) ps := by
  induction ps using List.reverseRecOn with
  | nil => exact ⟨rfl, rfl, rfl, rfl⟩
  | append_singleton ps px ih =>
    rw [List.length_append, List.length_singleton] at hlen
    have hps := ih (by omega)
    obtain ⟨hr, hg, hb, hcount⟩ := hps.addPixel_exact (by omega) px
    rw [addPixels_append_one]
    constructor
    · simp [hr, hps.sumR]
    · simp [hg, hps.sumG]
    · simp [hb, hps.sumB]
    · simp [hcount, hps.count]

/-- Settles O23: the walk adds the stream of each key to its bucket; by R24 the bucket was zero, so no sum wraps. -/
theorem refineAddsUndedicatedPixels : Obligations.RefineAddsUndedicatedPixels := by
  intro s hp hn
  obtain ⟨l2, hexec, hl2⟩ := exec_refine_of_ranked hp hn
  refine ⟨_, hexec, ?_, rfl⟩
  rintro j ps rfl
  refine ⟨(hl2 j).trans (addPixels_eq _ _), fun _ hrun => ?_⟩
  have hzero : readBucket s.l2 j.toNat = Bucket.zero :=
    hrun.fineCleared (by simp [hp]) (by simp [hp, afterRefine]) j
  rw [hl2, hzero]
  exact ⟨rfl, holdsTotals_addPixels_zero ((length_streamPixels_le ..).trans hn)⟩

end Sys2Proof.Machine

/-! ### The palette averager: `BUILD` -/

namespace Sys2Proof.Machine

theorem exec_build_of_refined {s : State} (hp : s.phase = .refined) :
    exec .build s = .next { s with palette := sharedRange s (dedicatedRange s s.palette), phase := .built } :=
  inPhases_of_mem (by simpa using hp)

/-- The two ranges write different slots, and between them reach slots 0 to 191 and no other (R141, R142). -/
theorem readColour_sharedRange_dedicatedRange (s : State) (pal : Table Colour) (slot : Nat) :
    readColour (sharedRange s (dedicatedRange s pal)) slot =
      if slot < 192 ∧ (slotBucket s slot).count.toNat ≠ 0 then meanColour (slotBucket s slot)
      else readColour pal slot := by
  rw [readColour_sharedRange, readColour_dedicatedRange]
  rcases Nat.lt_or_ge slot 128 with hded | hshared
  · have hnot : ¬ 128 ≤ slot := by omega
    have hlt : slot < 192 := by omega
    simp only [hded, hnot, hlt, true_and, false_and, if_false]
  · have hnot : ¬ slot < 128 := by omega
    simp only [hshared, hnot, true_and, false_and, if_false]

/-- Settles O24: each range writes the slots of its own buckets that count a pixel, and the phase is the only other
change. -/
theorem buildAveragesEveryNonemptyBucket : Obligations.BuildAveragesEveryNonemptyBucket := fun s hp =>
  ⟨_, exec_build_of_refined hp, readColour_sharedRange_dedicatedRange s s.palette, rfl⟩

end Sys2Proof.Machine

/-! ### The index encoder: `ENCODE` -/

namespace Sys2Proof.Machine

/-- The place of pixel `n` in a photo of `w` by `h` pixels: column `n mod w` of row `n div w` counted from the last row
(R47). -/
def photoPlace (w h n : Nat) : Nat := (h - 1 - n / w) * w + n % w

theorem photoPlace_column (w h n : Nat) : photoPlace w h n % w = n % w := by
  rw [photoPlace, Nat.mul_add_mod_self_right, Nat.mod_mod]

section
variable {w h n : Nat} (hn : n < w * h)
include hn

/-- A photo with a pixel has a column. -/
theorem photo_width_pos : 0 < w := Nat.pos_of_mul_pos_right (Nat.zero_lt_of_lt hn)

/-- R47 defines `photo_addr` on every pixel of the photo. -/
theorem photoAddr_eq_photoPlace : photoAddr w h n = some (photoPlace w h n) :=
  if_pos ⟨photo_width_pos hn, Nat.div_lt_of_lt_mul hn⟩

theorem photoPlace_row : photoPlace w h n / w = h - 1 - n / w := by
  have hw := photo_width_pos hn
  rw [photoPlace, Nat.add_comm, Nat.add_mul_div_right _ _ hw, Nat.mod_div_self, Nat.zero_add]

theorem photoPlace_lt : photoPlace w h n < w * h := by
  have hrow : n / w < h := Nat.div_lt_of_lt_mul hn
  rw [Nat.mul_comm]
  refine Nat.lt_mul_of_div_lt ?_ (photo_width_pos hn)
  rw [photoPlace_row hn]
  exact (Nat.sub_le ..).trans_lt (Nat.sub_one_lt_of_lt hrow)

/-- Inverting the rows twice gives back the pixel, so no two pixels share a place and no place is without a pixel
(R47). -/
theorem photoPlace_photoPlace : photoPlace w h (photoPlace w h n) = n := by
  have hrow : n / w < h := Nat.div_lt_of_lt_mul hn
  have hback : h - 1 - (h - 1 - n / w) = n / w := Nat.sub_sub_self (Nat.le_sub_one_of_lt hrow)
  rw [photoPlace, photoPlace_row hn, photoPlace_column, hback, Nat.div_add_mod']

end

theorem photoPlace_inj {w h n m : Nat} (hn : n < w * h) (hm : m < w * h) (heq : photoPlace w h n = photoPlace w h m) :
    n = m := by
  rw [← photoPlace_photoPlace hn, heq, photoPlace_photoPlace hm]

/-- The additions of the index byte do not wrap: a dedicated index is at most 191, a shared one at most 255 (R73,
R151). -/
theorem indexOf_toNat (slots : Table SlotEntry) (px : Pixel) :
    (indexOf slots px).toNat =
      if (readSlot slots (k4 px)).sel then 64 + (readSlot slots (k4 px)).slot.toNat else 192 + (k2 px).toNat := by
  have hslot := (readSlot slots (k4 px)).slot.isLt
  have hkey := (k2 px).isLt
  rw [indexOf, indexByte]
  split <;>
  · simp only [BitVec.toNat_add, BitVec.toNat_setWidth, BitVec.toNat_ofNat]
    omega

/-- In `BUILT` under the invariant, pass 3 completes and only `QPHOTO` and the phase are new: each pixel's byte is at
its place, and no byte from `NPIX` up is touched (R150, R152, R153). -/
theorem exec_encode_of_built {s : State} (hinv : Inv Config.limits s) (hp : s.phase = .built) :
    ∃ photo, exec .encode s = .next { s with qPhoto := photo, phase := .done } ∧
      (∀ n, n < s.npix.toNat →
        photoByte photo (photoPlace s.runW.toNat s.runH.toNat n) = indexOf s.slotMap (cachedPixel s.pixCache n)) ∧
      ∀ a, s.npix.toNat ≤ a → photoByte photo a = photoByte s.qPhoto a := by
  have hpixel : ∀ n, n < s.npix.toNat → n < s.runW.toNat * s.runH.toNat := fun _ hn => hn.trans_eq hinv.npix_eq
  have hplace : ∀ n, n < s.npix.toNat → photoPlace s.runW.toNat s.runH.toNat n < s.npix.toNat := fun n hn =>
    (photoPlace_lt (hpixel n hn)).trans_eq hinv.npix_eq.symm
  obtain ⟨photo, hwalk, -, hbytes, hkept⟩ :=
    encodeWalk_completes Config.limits s (photoPlace s.runW.toNat s.runH.toNat) s.npix.toNat hinv.npix_le_maxN
      (fun n hn => ⟨photoAddr_eq_photoPlace (hpixel n hn), (hplace n hn).trans_le hinv.npix_le_maxN⟩)
      (fun n m hn hm => photoPlace_inj (hpixel n hn) (hpixel m hm))
  have hrun : exec .encode s = encodePass Config.limits s := inPhases_of_mem (by simpa using hp)
  exact ⟨photo, by rw [hrun, encodePass, hwalk], hbytes,
    fun a ha => hkept a fun n hn => ((hplace n hn).trans_le ha).ne⟩

/-- Settles O26: the walk writes each pixel's byte at its own place, and every place is below `NPIX`. -/
theorem encodeWritesIndexesRowsInverted : Obligations.EncodeWritesIndexesRowsInverted := by
  intro s hinv hp
  obtain ⟨photo, hexec, hbytes, hkept⟩ := exec_encode_of_built hinv hp
  refine ⟨_, hexec, ?_, hkept, rfl⟩
  rintro n px hn rfl
  exact (congrArg BitVec.toNat (hbytes n hn)).trans (indexOf_toNat ..)

end Sys2Proof.Machine

/-! ### Read-out: word numbers and the words of the formats -/

namespace Sys2Proof.Machine

/-- A field of a word number, by arithmetic on the number (R64). -/
theorem extract_of_toNat {k : Nat} {a : Word} (lo : Nat) (x : BitVec k) (h : a.toNat / 2 ^ lo % 2 ^ k = x.toNat) :
    a.extractLsb' lo k = x :=
  BitVec.eq_of_toNat_eq ((toNat_field a lo k).trans h)

section
variable {a : Word}

theorem decodeRead_register {r : BitVec 4} (ha : a.toNat = r.toNat) : decodeRead a = .ok (.rdreg r) := by
  have hr := r.isLt
  rw [decodeRead_eq, if_pos (by omega), extract_of_toNat 0 r (by omega)]

theorem decodeRead_palette {slot : BitVec 8} (ha : a.toNat = 0x100 + slot.toNat) :
    decodeRead a = .ok (.rdpal slot) := by
  have hslot := slot.isLt
  rw [decodeRead_eq, if_neg (by omega), if_pos (by omega), extract_of_toNat 0 slot (by omega)]

theorem decodeRead_dedKey {slot : BitVec 7} (ha : a.toNat = 0x200 + slot.toNat) : decodeRead a = .ok (.rdded slot) := by
  have hslot := slot.isLt
  rw [decodeRead_eq]
  iterate 2 rw [if_neg (by omega)]
  rw [if_pos (by omega), extract_of_toNat 0 slot (by omega)]

theorem decodeRead_l2 {j : FineKey} {f : BucketField} (ha : a.toNat = 0x300 + 4 * j.toNat + (fieldCode f).toNat) :
    decodeRead a = .ok (.rdl2 j f) := by
  have hj := j.isLt
  have hf := (fieldCode f).isLt
  rw [decodeRead_eq]
  iterate 3 rw [if_neg (by omega)]
  rw [if_pos (by omega), extract_of_toNat 2 j (by omega), extract_of_toNat 0 (fieldCode f) (by omega),
    fieldOfCode_fieldCode]

theorem decodeRead_slotMap {k : CoarseKey} (ha : a.toNat = 0x1000 + k.toNat) : decodeRead a = .ok (.rdslot k) := by
  have hk := k.isLt
  rw [decodeRead_eq]
  iterate 4 rw [if_neg (by omega)]
  rw [if_pos (by omega), extract_of_toNat 0 k (by omega)]

theorem decodeRead_l4 {k : CoarseKey} {f : BucketField} (ha : a.toNat = 0x4000 + 4 * k.toNat + (fieldCode f).toNat) :
    decodeRead a = .ok (.rdl4 k f) := by
  have hk := k.isLt
  have hf := (fieldCode f).isLt
  rw [decodeRead_eq]
  iterate 5 rw [if_neg (by omega)]
  rw [if_pos (by omega), extract_of_toNat 2 k (by omega), extract_of_toNat 0 (fieldCode f) (by omega),
    fieldOfCode_fieldCode]

theorem decodeRead_photo {i : BitVec 24} (ha : a.toNat = 0x1000000 + i.toNat) : decodeRead a = .ok (.rdphoto i) := by
  have hi := i.isLt
  rw [decodeRead_eq]
  iterate 6 rw [if_neg (by omega)]
  rw [if_pos (by omega), extract_of_toNat 0 i (by omega)]

end

/-- A read of a word number below `2 ^ 25`, where every window lies, has that number as its address (R42, R60). -/
theorem decode_read_number {n : Nat} {i : Instr} (hn : n < 2 ^ 25)
    (h : (BitVec.ofNat 32 n).toNat = n → decodeRead (BitVec.ofNat 32 n) = .ok i) :
    decode (makeTxn false (BitVec.ofNat 32 n) 0) = .ok i :=
  (decode_read _ 0).trans (h (Nat.mod_eq_of_lt (by omega)))

theorem eq_ofNat_of_toNat_eq {n k : Nat} {x : BitVec k} (h : x.toNat = n) : x = BitVec.ofNat k n := by
  rw [← h, BitVec.ofNat_toNat, BitVec.setWidth_eq]

/-- A field alone in a word with zeros above it reads as its number (R71, R75, R162). -/
theorem toNat_zero_concat {n k : Nat} (x : BitVec k) : (0#n ++ x).toNat = x.toNat := by
  rw [toNat_concat, BitVec.toNat_ofNat, Nat.zero_mod, Nat.zero_mul, Nat.zero_add]

theorem errWord_eq (e : BitVec 4) : errWord e = BitVec.ofNat 32 e.toNat :=
  eq_ofNat_of_toNat_eq (toNat_zero_concat e)

theorem keyWord_eq (k : CoarseKey) : keyWord k = BitVec.ofNat 32 k.toNat :=
  eq_ofNat_of_toNat_eq (toNat_zero_concat k)

theorem photoWord_eq (b : Byte) : photoWord b = BitVec.ofNat 32 b.toNat :=
  eq_ofNat_of_toNat_eq (toNat_zero_concat b)

/-- A `SLOT_MAP` entry as its word: `sel` is bit 7 (R70). -/
theorem slotWord_eq (e : SlotEntry) :
    slotWord e = BitVec.ofNat 32 ((if e.sel then 128 else 0) + e.slot.toNat) := by
  apply eq_ofNat_of_toNat_eq
  rw [slotWord, toNat_concat, toNat_zero_concat]
  cases e.sel <;> simp

/-- A palette entry as its word: three fields of six bits (R72). -/
theorem paletteWord_eq (c : Colour) :
    paletteWord c = BitVec.ofNat 32 (c.r.toNat * 4096 + c.g.toNat * 64 + c.b.toNat) := by
  apply eq_ofNat_of_toNat_eq
  rw [paletteWord, toNat_concat_three, toNat_zero_concat]
  simp only [Nat.reduceAdd, Nat.reducePow]

/-- `MAXDIM` as its word: both parameters fit 16 bits (R4, R76). -/
theorem maxDimWord_eq {lim : Config.Limits} (h : lim.legal) :
    maxDimWord lim = BitVec.ofNat 32 (lim.maxH * 65536 + lim.maxW) := by
  obtain ⟨⟨-, hw⟩, ⟨-, hh⟩, -⟩ := h
  apply eq_ofNat_of_toNat_eq
  rw [maxDimWord, toNat_concat, BitVec.toNat_ofNat, BitVec.toNat_ofNat]
  omega

end Sys2Proof.Machine

/-! ### Read-out: the photo -/

namespace Sys2Proof.Machine

/-- Every byte of a valid photo is the index byte of one pixel: the one whose place it stands in (R24, R47). -/
theorem photoByte_eq_indexOf {s : State} (hinv : Inv Config.limits s) (hrun : RunInv s) (hp : s.phase = .done) {i : Nat}
    (hi : i < s.npix.toNat) : ∃ px, photoByte s.qPhoto i = indexOf s.slotMap px := by
  have hi' : i < s.runW.toNat * s.runH.toNat := hi.trans_eq hinv.npix_eq
  have hplace : photoPlace s.runW.toNat s.runH.toNat i < s.runW.toNat * s.runH.toNat := photoPlace_lt hi'
  obtain ⟨a, ha, hbyte⟩ := hrun.encoded hp _ (hplace.trans_eq hinv.npix_eq.symm)
  rw [photoAddr_eq_photoPlace hplace, photoPlace_photoPlace hi'] at ha
  obtain rfl := Option.some.inj ha
  exact ⟨_, hbyte⟩

/-- An index byte is a palette index, and those start at 64 (R5, R73, R151). -/
theorem palOffset_le_indexOf (slots : Table SlotEntry) (px : Pixel) : 64 ≤ (indexOf slots px).toNat := by
  rw [indexOf_toNat]
  split <;> omega

theorem exec_rdphoto_of_valid {s : State} {i : BitVec 24} (h : s.phase = .done ∧ i.toNat < s.npix.toNat)
    (hn : s.npix.toNat ≤ Config.limits.maxN) :
    exec (.rdphoto i) s = .next (respond (photoWord (photoByte s.qPhoto i.toNat)) s) := by
  simp only [exec, execRdphoto, readPhotoOn, if_pos h, photoRead_of_lt (h.2.trans_le hn)]

theorem exec_rdphoto_of_not_valid {s : State} {i : BitVec 24} (h : ¬ (s.phase = .done ∧ i.toNat < s.npix.toNat)) :
    exec (.rdphoto i) s = .next (respond 0 s) := if_neg h

/-- Settles O30: the gate has two sides; behind it stands the index byte of a pixel, which is a palette index. -/
theorem photoReads : Obligations.PhotoReads := by
  rintro s i v hn rfl
  have hi := i.isLt
  refine ⟨decode_read_number (by omega) decodeRead_photo, ?_, fun hinv hrun hp hlt => ?_⟩
  · by_cases hvalid : s.phase = .done ∧ i.toNat < s.npix.toNat
    · rw [if_pos hvalid, exec_rdphoto_of_valid hvalid hn, photoWord_eq]
      rfl
    · rw [if_neg hvalid, exec_rdphoto_of_not_valid hvalid]
      rfl
  · rw [if_pos ⟨hp, hlt⟩, ← photoWord_eq, photoWord, toNat_zero_concat]
    obtain ⟨px, hbyte⟩ := photoByte_eq_indexOf hinv hrun hp hlt
    exact ⟨hbyte ▸ palOffset_le_indexOf s.slotMap px, Nat.le_of_lt_succ (BitVec.isLt _)⟩

end Sys2Proof.Machine

/-! ### Read-out: the control registers -/

namespace Sys2Proof.Machine

theorem exec_rdreg_of_word {a : BitVec 4} {v : Word} {s : State} (h : registerWord Config.limits a s = some v) :
    exec (.rdreg a) s = .next (respond v s) := by
  simp only [exec, execRdreg, readRegisterOn, h]

/-- Register 1 is `STATUS` (R74). -/
theorem exec_rdreg_status {p : Phase} {s : State} (h : s.phase = p) :
    exec (.rdreg 1) s = .next (respond (statusWord p) s) :=
  exec_rdreg_of_word (h ▸ rfl)

/-- Settles O28: each register is one arm of the read, and its word is the format of R74, R75 or R76; the numbers from
11 up have no arm. -/
theorem controlRegisterReads : Obligations.ControlRegisterReads := by
  intro s
  refine ⟨fun a => decode_read_number (a.isLt.trans (by decide)) decodeRead_register, exec_rdreg_of_word rfl,
    exec_rdreg_status, exec_rdreg_status, exec_rdreg_status, exec_rdreg_status, exec_rdreg_status,
    exec_rdreg_status, exec_rdreg_status, exec_rdreg_of_word (congrArg some (errWord_eq s.err)),
    exec_rdreg_of_word rfl, exec_rdreg_of_word rfl, exec_rdreg_of_word rfl, exec_rdreg_of_word rfl,
    exec_rdreg_of_word rfl, exec_rdreg_of_word rfl, exec_rdreg_of_word rfl, fun v hv => ?_, fun a ha => ?_⟩
  · rw [hv, ← maxDimWord_eq Config.limits_legal]
    exact exec_rdreg_of_word rfl
  · exact exec_of_not_wellFormed (i := .rdreg a) (decide_eq_false (by omega)) s

end Sys2Proof.Machine

/-! ### Read-out: the palette -/

namespace Sys2Proof.Machine

theorem exec_rdpal_of_mapped {slot : BitVec 8} (h : ¬ 192 ≤ slot.toNat) (s : State) :
    exec (.rdpal slot) s =
      .next (respond (if s.phase = .done then paletteWord (readColour s.palette slot.toNat) else 0) s) := by
  simp only [exec, execRdpal, if_neg h]
  split <;> rfl

/-- Settles O29: slots from 192 up are unmapped; below, the gate on `DONE` has two sides. -/
theorem paletteReads : Obligations.PaletteReads := by
  rintro s slot c rfl
  refine ⟨decode_read_number (by omega) decodeRead_palette, ?_⟩
  by_cases hslot : 192 ≤ slot.toNat
  · rw [if_pos hslot]
    exact exec_of_not_wellFormed (i := .rdpal slot) (decide_eq_false (by omega)) s
  · rw [if_neg hslot, exec_rdpal_of_mapped hslot, ← paletteWord_eq]
    split <;> rfl

end Sys2Proof.Machine

/-! ### Read-out: the four debug windows -/

namespace Sys2Proof.Machine

/-- The four fields of `L4[k]` have consecutive word numbers from `0x4000 + 4*k` on (R42, R69). -/
theorem decode_l4_number (k : CoarseKey) (f : BucketField) :
    decode (makeTxn false (BitVec.ofNat 32 (0x4000 + 4 * k.toNat + (fieldCode f).toNat)) 0) = .ok (.rdl4 k f) :=
  decode_read_number (by omega) decodeRead_l4

/-- The four fields of `L2[j]` have consecutive word numbers from `0x300 + 4*j` on (R42, R69). -/
theorem decode_l2_number (j : FineKey) (f : BucketField) :
    decode (makeTxn false (BitVec.ofNat 32 (0x300 + 4 * j.toNat + (fieldCode f).toNat)) 0) = .ok (.rdl2 j f) :=
  decode_read_number (by omega) decodeRead_l2

/-- Settles O31: the four windows share one gate, and the field number of a bucket is its place in R42's order. -/
theorem debugWindowReads : Obligations.DebugWindowReads := by
  intro s k j slot shown hshown
  have hread (v : Word) : debugRead v s = .next { s with rdata := some (shown v) } := by
    rw [hshown, debugRead]
    rfl
  refine ⟨⟨decode_l4_number k .sumR, decode_l4_number k .sumG, decode_l4_number k .sumB, decode_l4_number k .count,
      hread _, hread _, hread _, hread _⟩,
    ⟨decode_l2_number j .sumR, decode_l2_number j .sumG, decode_l2_number j .sumB, decode_l2_number j .count,
      hread _, hread _, hread _, hread _⟩,
    ⟨?_, ?_⟩, ?_, ?_⟩
  · exact decode_read_number (by omega) decodeRead_slotMap
  · rintro v rfl
    rw [← slotWord_eq]
    exact hread _
  · exact decode_read_number (by omega) decodeRead_dedKey
  · rw [← keyWord_eq]
    exact hread _

end Sys2Proof.Machine

/-! ### Encoding: the round trip -/

namespace Sys2Proof.Machine

/-- The low field of a write's data is what its constructor holds (R63). -/
theorem decode_encode_push (px : Pixel) : decode (encode (.push px)) = .ok (.push px) :=
  (decode_write _ _).trans (congrArg (fun x => Except.ok (Instr.push x)) (extract_low 0#16 px))

theorem decode_encode_clrerr (m : BitVec 4) : decode (encode (.clrerr m)) = .ok (.clrerr m) :=
  (decode_write _ _).trans (congrArg (fun x => Except.ok (Instr.clrerr x)) (extract_low 0#28 m))

/-- The word number of a read decides its instruction (R64). -/
theorem decode_readTxn {a : Word} {i : Instr} (h : decodeRead a = .ok i) : decode (readTxn a) = .ok i :=
  (decode_read a 0).trans h

/-- Settles O1: the decoder's arm for each word number gives back the operands the encoder put there. -/
theorem decodeEncodeRoundTrip : Obligations.DecodeEncodeRoundTrip := by
  intro i
  cases i with
  | nop => exact decode_write 0 0
  | start => exact decode_write 0 1
  | rank => exact decode_write 0 2
  | refine => exact decode_write 0 3
  | build => exact decode_write 0 4
  | encode => exact decode_write 0 5
  | abort => exact decode_write 0 6
  | push px => exact decode_encode_push px
  | setw v => exact decode_write 3 v
  | seth v => exact decode_write 4 v
  | clrerr m => exact decode_encode_clrerr m
  | rdreg a => exact decode_readTxn (decodeRead_register (toNat_zero_concat a))
  | rdpal s => exact decode_readTxn (decodeRead_palette (toNat_concat 1#24 s))
  | rdded s => exact decode_readTxn (decodeRead_dedKey (toNat_concat 4#25 s))
  | rdl2 j f =>
    refine decode_readTxn (decodeRead_l2 ?_)
    rw [toNat_concat_three, Nat.mul_comm 4]
    rfl
  | rdslot k => exact decode_readTxn (decodeRead_slotMap (toNat_concat 1#20 k))
  | rdl4 k f =>
    refine decode_readTxn (decodeRead_l4 ?_)
    rw [toNat_concat_three, Nat.mul_comm 4]
    rfl
  | rdphoto n => exact decode_readTxn (decodeRead_photo (toNat_concat 1#8 n))

/-- Settles O4: eleven words, each decoded. -/
theorem sampleWordsDecode : Obligations.SampleWordsDecode := by
  unfold Obligations.SampleWordsDecode
  decide

end Sys2Proof.Machine

/-! ### Encoding: the bits a word keeps, and the rows of the opcode table -/

namespace Sys2Proof.Machine

theorem exists_makeTxn (t : Txn) : ∃ w a d, t = makeTxn w a d := ⟨_, _, _, (makeTxn_fields t).symm⟩

/-- A mask with every bit of `rw` and `addr` set works on the data alone (R60). -/
theorem makeTxn_and_dataMask (w : Bool) (a d mask : Word) :
    makeTxn w a d &&& makeTxn true (BitVec.allOnes 32) mask = makeTxn w a (d &&& mask) := by
  have hrw : BitVec.ofBool w &&& BitVec.ofBool true = BitVec.ofBool w := by cases w <;> rfl
  have hupper : BitVec.ofBool w ++ a &&& BitVec.ofBool true ++ BitVec.allOnes 32 = BitVec.ofBool w ++ a := by
    rw [BitVec.and_append, hrw, BitVec.and_allOnes]
  have hword : (BitVec.ofBool w ++ a ++ d) &&& (BitVec.ofBool true ++ BitVec.allOnes 32 ++ mask) =
      BitVec.ofBool w ++ a ++ (d &&& mask) := by
    rw [BitVec.and_append, hupper]
  exact hword

/-- The data of a read is ignored (R78). -/
theorem significantMask_of_isRead {i : Instr} (h : i.isRead = true) :
    significantMask i = makeTxn true (BitVec.allOnes 32) 0 := by
  cases i with
  | rdreg _ | rdpal _ | rdded _ | rdl2 _ _ | rdslot _ | rdl4 _ _ | rdphoto _ =>
    simp only [significantMask]
    rfl
  | _ => cases h

/-- The low `k` bits of a word, with zeros above them. -/
theorem and_lowMask (n k : Nat) (d : BitVec (n + k)) :
    d &&& (0#n ++ BitVec.allOnes k) = 0#n ++ d.extractLsb' 0 k := by
  have hd : d = d.extractLsb' k n ++ d.extractLsb' 0 k := by
    apply BitVec.eq_of_toNat_eq
    rw [toNat_concat, toNat_upperField d k n (Nat.add_comm k n), toNat_field, Nat.pow_zero, Nat.div_one,
      Nat.div_add_mod']
  conv_lhs => rw [hd]
  rw [BitVec.and_append, BitVec.and_zero, BitVec.and_allOnes]

/-- A command is a word of its own: its encoding is the word, all of it (R61). -/
theorem encode_of_decodeCommand {d : Word} {i : Instr} (h : decodeCommand d = .ok i) :
    i.isRead = false ∧ encode i = makeTxn true 0 d ∧ significantMask i = BitVec.allOnes 65 := by
  have hd {n : Nat} (hn : d.toNat = n) : d = BitVec.ofNat 32 n := eq_ofNat_of_toNat_eq hn
  rw [decodeCommand_eq] at h
  split_ifs at h with h0 h1 h2 h3 h4 h5 h6 <;> obtain rfl := Except.ok.inj h
  · exact ⟨rfl, hd h0 ▸ rfl, rfl⟩
  · exact ⟨rfl, hd h1 ▸ rfl, rfl⟩
  · exact ⟨rfl, hd h2 ▸ rfl, rfl⟩
  · exact ⟨rfl, hd h3 ▸ rfl, rfl⟩
  · exact ⟨rfl, hd h4 ▸ rfl, rfl⟩
  · exact ⟨rfl, hd h5 ▸ rfl, rfl⟩
  · exact ⟨rfl, hd h6 ▸ rfl, rfl⟩

/-- A write keeps its word number, and the data but for the bits its row ignores (R63). -/
theorem encode_of_decodeWrite {a d : Word} {i : Instr} (h : decodeWrite a d = .ok i) :
    i.isRead = false ∧ encode i = makeTxn true a d &&& significantMask i := by
  have ha {n : Nat} (hn : a.toNat = n) : a = BitVec.ofNat 32 n := eq_ofNat_of_toNat_eq hn
  rw [decodeWrite_eq] at h
  split_ifs at h with h0 h2 h3 h4 h5
  · obtain ⟨hwrite, henc, hmask⟩ := encode_of_decodeCommand h
    rw [henc, hmask, BitVec.and_allOnes, ha h0]
    exact ⟨hwrite, rfl⟩
  · obtain rfl := Except.ok.inj h
    have hdata : d &&& 0xF = 0#28 ++ d.extractLsb' 0 4 := and_lowMask 28 4 d
    rw [ha h2]
    exact ⟨rfl, (congrArg (makeTxn true 2) hdata).symm.trans (makeTxn_and_dataMask true 2 d 0xF).symm⟩
  · obtain rfl := Except.ok.inj h
    rw [ha h3]
    exact ⟨rfl, (BitVec.and_allOnes (x := makeTxn true 3 d)).symm⟩
  · obtain rfl := Except.ok.inj h
    rw [ha h4]
    exact ⟨rfl, (BitVec.and_allOnes (x := makeTxn true 4 d)).symm⟩
  · obtain rfl := Except.ok.inj h
    have hdata : d &&& 0xFFFF = 0#16 ++ d.extractLsb' 0 16 := and_lowMask 16 16 d
    rw [ha h5]
    exact ⟨rfl, (congrArg (makeTxn true 5) hdata).symm.trans (makeTxn_and_dataMask true 5 d 0xFFFF).symm⟩

theorem readTxn_of_toNat_eq {a b : Word} (h : a.toNat = b.toNat) : readTxn a = readTxn b :=
  congrArg readTxn (BitVec.eq_of_toNat_eq h)

/-- A window's upper bits and the operands are the whole word number, so a read's encoding has the number decoded
(R64). -/
theorem encode_of_decodeRead {a : Word} {i : Instr} (h : decodeRead a = .ok i) :
    i.isRead = true ∧ encode i = readTxn a := by
  rw [decodeRead_eq] at h
  split_ifs at h with h1 h2 h3 h4 h5 h6 h7 <;> obtain rfl := Except.ok.inj h <;>
    refine ⟨rfl, readTxn_of_toNat_eq ?_⟩
  · rw [toNat_concat, toNat_field, BitVec.toNat_ofNat]
    omega
  · rw [toNat_concat, toNat_field, BitVec.toNat_ofNat]
    omega
  · rw [toNat_concat, toNat_field, BitVec.toNat_ofNat]
    omega
  · rw [toNat_concat_three, fieldCode_fieldOfCode, toNat_field, toNat_field, BitVec.toNat_ofNat]
    omega
  · rw [toNat_concat, toNat_field, BitVec.toNat_ofNat]
    omega
  · rw [toNat_concat_three, fieldCode_fieldOfCode, toNat_field, toNat_field, BitVec.toNat_ofNat]
    omega
  · rw [toNat_concat, toNat_field, BitVec.toNat_ofNat]
    omega

/-- A transaction that decodes is the one or the other by its `rw` bit (R60). -/
theorem isRead_of_decode {t : Txn} {i : Instr} (h : decode t = .ok i) : i.isRead = !txnIsWrite t := by
  obtain ⟨w, a, d, rfl⟩ := exists_makeTxn t
  rw [makeTxn_isWrite]
  cases w with
  | true => exact (encode_of_decodeWrite ((decode_write a d).symm.trans h)).1
  | false => exact (encode_of_decodeRead ((decode_read a d).symm.trans h)).1

/-- Settles O3: a write keeps the data its row does not ignore, a read its word number. -/
theorem decodeDropsOnlyIgnoredBits : Obligations.DecodeDropsOnlyIgnoredBits := by
  intro t i h
  obtain ⟨w, a, d, rfl⟩ := exists_makeTxn t
  cases w with
  | true =>
    rw [decode_write] at h
    exact (encode_of_decodeWrite h).2
  | false =>
    rw [decode_read] at h
    obtain ⟨hread, henc⟩ := encode_of_decodeRead h
    rw [henc, significantMask_of_isRead hread, makeTxn_and_dataMask]
    exact congrArg (makeTxn false a) BitVec.and_zero.symm


/-- The bits that fix the row are significant. -/
theorem significantMask_and_rowMask (i : Instr) : significantMask i &&& rowMask i = rowMask i := by
  cases i <;> simp only [significantMask, rowMask] <;> decide

theorem encode_and_rowMask (i : Instr) : encode i &&& rowMask i = rowMatch i := by
  cases i with
  | nop => exact Laws.RowWord.nop
  | start => exact Laws.RowWord.start
  | rank => exact Laws.RowWord.rank
  | refine => exact Laws.RowWord.refine
  | build => exact Laws.RowWord.build
  | encode => exact Laws.RowWord.encode
  | abort => exact Laws.RowWord.abort
  | push px => exact Laws.RowWord.push px
  | setw v => exact Laws.RowWord.setw v
  | seth v => exact Laws.RowWord.seth v
  | clrerr m => exact Laws.RowWord.clrerr m
  | rdreg a => exact Laws.RowWord.rdreg a
  | rdpal s => exact Laws.RowWord.rdpal s
  | rdded s => exact Laws.RowWord.rdded s
  | rdl2 j f => exact Laws.RowWord.rdl2 j f
  | rdslot k => exact Laws.RowWord.rdslot k
  | rdl4 k f => exact Laws.RowWord.rdl4 k f
  | rdphoto n => exact Laws.RowWord.rdphoto n

/-- A word that decodes agrees with its instruction's own word on the row's bits, so it lies in the row (R60). -/
theorem and_rowMask_of_decode {t : Txn} {i : Instr} (h : decode t = .ok i) : t &&& rowMask i = rowMatch i := by
  rw [← significantMask_and_rowMask, ← BitVec.and_assoc, ← decodeDropsOnlyIgnoredBits t i h, encode_and_rowMask]

/-- A row whose mask is every bit from `lo` up fixes the quotient of the word by `2 ^ lo`. -/
theorem div_eq_of_and_mask {t m : Txn} (lo : Nat) (hlo : lo ≤ 65) (hm : m &&& (BitVec.allOnes 65 <<< lo) = m)
    (h : t &&& (BitVec.allOnes 65 <<< lo) = m) : t.toNat / 2 ^ lo = m.toNat / 2 ^ lo := by
  have hupper := congrArg BitVec.toNat ((and_mask_eq_iff t m lo hm).1 h)
  rwa [toNat_upperField t lo _ (Nat.add_sub_cancel' hlo), toNat_upperField m lo _ (Nat.add_sub_cancel' hlo)] at hupper

theorem toNat_makeTxn (w : Bool) (a d : Word) :
    (makeTxn w a d).toNat = w.toNat * 2 ^ 64 + a.toNat * 2 ^ 32 + d.toNat := by
  rw [makeTxn, toNat_concat_three, BitVec.toNat_ofBool]

/-- Where a row's bits begin: the low end of its mask. -/
def rowLow : Instr → Nat
  | .nop | .start | .rank | .refine | .build | .encode | .abort => 0
  | .push _ | .setw _ | .seth _ | .clrerr _ => 32
  | .rdreg _ => 36
  | .rdpal _ | .rdl2 _ _ => 40
  | .rdded _ => 39
  | .rdslot _ => 44
  | .rdl4 _ _ => 46
  | .rdphoto _ => 56

theorem rowMask_eq (i : Instr) : rowMask i = BitVec.allOnes 65 <<< rowLow i := by
  cases i <;> simp only [rowMask, rowLow] <;> decide

theorem rowMatch_and_rowMask (i : Instr) : rowMatch i &&& rowMask i = rowMatch i := by
  rw [← encode_and_rowMask, BitVec.and_assoc, BitVec.and_self]

theorem rowLow_le (i : Instr) : rowLow i ≤ 65 := by
  cases i <;> simp only [rowLow] <;> decide

/-- The word number and the data of a word in a row, as a quotient (R61 to R64). -/
theorem toNat_div_of_row {w : Bool} {a d : Word} {i : Instr} (h : makeTxn w a d &&& rowMask i = rowMatch i) :
    (w.toNat * 2 ^ 64 + a.toNat * 2 ^ 32 + d.toNat) / 2 ^ rowLow i = (rowMatch i).toNat / 2 ^ rowLow i := by
  have hm := rowMatch_and_rowMask i
  rw [rowMask_eq] at h hm
  rw [← toNat_makeTxn]
  exact div_eq_of_and_mask _ (rowLow_le i) hm h

/-- A read of a row of R64 has the word number of the row's window. -/
theorem decodeRead_of_row {a d : Word} {i : Instr} (h : makeTxn false a d &&& rowMask i = rowMatch i) :
    ∃ i', decodeRead a = .ok i' ∧ rowMatch i' = rowMatch i := by
  have hrow := toNat_div_of_row h
  have hd := d.isLt
  have ha := a.isLt
  rw [decodeRead_eq]
  cases i <;> simp only [rowLow, rowMatch, Bool.toNat_false, BitVec.toNat_ofNat] at hrow
  case rdreg => exact ⟨_, if_pos (by omega), rfl⟩
  case rdpal =>
    rw [if_neg (by omega), if_pos (by omega)]
    exact ⟨_, rfl, rfl⟩
  case rdded =>
    iterate 2 rw [if_neg (by omega)]
    rw [if_pos (by omega)]
    exact ⟨_, rfl, rfl⟩
  case rdl2 =>
    iterate 3 rw [if_neg (by omega)]
    rw [if_pos (by omega)]
    exact ⟨_, rfl, rfl⟩
  case rdslot =>
    iterate 4 rw [if_neg (by omega)]
    rw [if_pos (by omega)]
    exact ⟨_, rfl, rfl⟩
  case rdl4 =>
    iterate 5 rw [if_neg (by omega)]
    rw [if_pos (by omega)]
    exact ⟨_, rfl, rfl⟩
  case rdphoto =>
    iterate 6 rw [if_neg (by omega)]
    rw [if_pos (by omega)]
    exact ⟨_, rfl, rfl⟩
  all_goals omega

/-- A write of a row of R61 to R63 has the row's word number, and a command its data too. -/
theorem decodeWrite_of_row {a d : Word} {i : Instr} (h : makeTxn true a d &&& rowMask i = rowMatch i) :
    ∃ i', decodeWrite a d = .ok i' ∧ rowMatch i' = rowMatch i := by
  have hrow := toNat_div_of_row h
  have hd := d.isLt
  have ha := a.isLt
  have command {n : Nat} (hn : a.toNat * 2 ^ 32 + d.toNat = n) (hlt : n < 2 ^ 32) :
      decodeWrite a d = decodeCommand (BitVec.ofNat 32 n) := by
    rw [decodeWrite_eq, if_pos (by omega), eq_ofNat_of_toNat_eq (x := d) (n := n) (by omega)]
  cases i <;> simp only [rowLow, rowMatch, Bool.toNat_true, BitVec.toNat_ofNat] at hrow
  case nop => exact ⟨_, command (n := 0) (by omega) (by decide), rfl⟩
  case start => exact ⟨_, command (n := 1) (by omega) (by decide), rfl⟩
  case rank => exact ⟨_, command (n := 2) (by omega) (by decide), rfl⟩
  case refine => exact ⟨_, command (n := 3) (by omega) (by decide), rfl⟩
  case build => exact ⟨_, command (n := 4) (by omega) (by decide), rfl⟩
  case encode => exact ⟨_, command (n := 5) (by omega) (by decide), rfl⟩
  case abort => exact ⟨_, command (n := 6) (by omega) (by decide), rfl⟩
  case clrerr =>
    rw [eq_ofNat_of_toNat_eq (x := a) (n := 2) (by omega)]
    exact ⟨_, rfl, rfl⟩
  case setw =>
    rw [eq_ofNat_of_toNat_eq (x := a) (n := 3) (by omega)]
    exact ⟨_, rfl, rfl⟩
  case seth =>
    rw [eq_ofNat_of_toNat_eq (x := a) (n := 4) (by omega)]
    exact ⟨_, rfl, rfl⟩
  case push =>
    rw [eq_ofNat_of_toNat_eq (x := a) (n := 5) (by omega)]
    exact ⟨_, rfl, rfl⟩
  all_goals omega

/-- A word of a row decodes to an instruction of that row (R60). -/
theorem decode_of_row {t : Txn} {i : Instr} (h : t &&& rowMask i = rowMatch i) :
    ∃ i', decode t = .ok i' ∧ rowMatch i' = rowMatch i := by
  obtain ⟨w, a, d, rfl⟩ := exists_makeTxn t
  cases w with
  | true =>
    rw [decode_write]
    exact decodeWrite_of_row h
  | false =>
    rw [decode_read]
    exact decodeRead_of_row h

/-- Settles O2: a word that decodes lies in its instruction's row, and a word of a row decodes to an instruction of that
row; so a rejected word lies in no row, and two rows of one word are the decoded instruction's. -/
theorem decoderAgreesWithOpcodeTable : Obligations.DecoderAgreesWithOpcodeTable := by
  intro t
  constructor
  · rcases hdec : decode t with r | i
    · refine .inr ⟨⟨r, rfl⟩, fun i hrow => ?_⟩
      obtain ⟨i', hok, -⟩ := decode_of_row hrow
      exact nomatch hdec.symm.trans hok
    · exact .inl ⟨i, rfl, and_rowMask_of_decode hdec⟩
  · intro i j hi hj
    obtain ⟨i', hok, hmatch⟩ := decode_of_row hi
    obtain ⟨j', hok', hmatch'⟩ := decode_of_row hj
    obtain rfl := Except.ok.inj (hok.symm.trans hok')
    exact hmatch.symm.trans hmatch'

end Sys2Proof.Machine

/-! ### What an instruction can do, once for all eighteen -/

namespace Sys2Proof.Machine

/-- The state after an admitted `PUSH` (R111, R112). -/
def takePixel (px : Pixel) (s : State) : State :=
  { s with
    l4 := accumulate s.l4 (k4 px).toNat px
    pixCache := writeEntry 0 s.pixCache s.pixIdx.toNat px
    pixIdx := s.pixIdx + 1
    phase := phaseAfterPush s }

/-- The run moves on: the instructions that change the phase, the run's registers, a table or a RAM, each in its phase
(R94, R95, R112, R122, R131, R142, R153). -/
inductive Advance (s : State) : Instr → State → Prop
  | abort : Advance s .abort { s with phase := .idle }
  | start (hp : s.phase = .idle ∨ s.phase = .done) (hw : s.width.toNat ≤ Config.limits.maxW)
      (hh : s.height.toNat ≤ Config.limits.maxH) : Advance s .start (beginRun s)
  | push (px : Pixel) (hp : s.phase = .fill) (hi : s.pixIdx.toNat < Config.limits.maxN) :
      Advance s (.push px) (takePixel px s)
  | rank (hp : s.phase = .filled) :
      Advance s .rank { s with
        dedKey := dedKeyTable (dedicatedKeys s.l4), slotMap := slotMapTable (dedicatedKeys s.l4), phase := .ranked }
  | refine {l2 : Table Bucket} (hp : s.phase = .ranked)
      (hwalk : refineWalk Config.limits s s.npix.toNat = .ok l2) :
      Advance s .refine { s with l2 := l2, phase := .refined }
  | build (hp : s.phase = .refined) :
      Advance s .build { s with palette := sharedRange s (dedicatedRange s s.palette), phase := .built }
  | encode {photo : Table Byte} (hp : s.phase = .built)
      (hwalk : encodeWalk Config.limits s s.npix.toNat = .ok photo) :
      Advance s .encode { s with qPhoto := photo, phase := .done }

/-- The phases that allow a command or a `PUSH`; every other instruction runs in all (R90, R99). -/
def admittedIn (p : Phase) : Instr → Prop
  | .start => p = .idle ∨ p = .done
  | .push _ => p = .fill
  | .rank => p = .filled
  | .refine => p = .ranked
  | .build => p = .refined
  | .encode => p = .built
  | _ => True

/-- The cause for which an instruction raises an error (R180). No instruction raises `ILLCMD`. -/
def causes (s : State) (i : Instr) : ErrFlag → Prop
  | .size => i = .start ∧ (s.phase = .idle ∨ s.phase = .done) ∧
      (Config.limits.maxW < s.width.toNat ∨ Config.limits.maxH < s.height.toNat)
  | .seq => ¬ admittedIn s.phase i
  | .illCmd => False
  | .addr => i.isRead = true ∧ i.wellFormed = false

/-- An error raised by a transaction: a read returns 0 besides (R184). -/
def raiseFor (read : Bool) (f : ErrFlag) (s : State) : State := if read then raiseErrRead f s else raiseErr f s

/-- Everything an instruction can do that does not stop. -/
inductive Effect (s : State) : Instr → State → Prop
  | advance {i : Instr} {t : State} (h : Advance s i t) : Effect s i t
  | nop : Effect s .nop s
  | setw (v : Word) : Effect s (.setw v) { s with width := v }
  | seth (v : Word) : Effect s (.seth v) { s with height := v }
  | clrerr (m : BitVec 4) : Effect s (.clrerr m) { s with err := clearFlags m s.err }
  | answer {i : Instr} {v : Word} (hread : i.isRead = true) (hwf : i.wellFormed = true)
      (h : exec i s = .next (respond v s)) : Effect s i (respond v s)
  | error {i : Instr} {f : ErrFlag} (h : causes s i f) : Effect s i (raiseFor i.isRead f s)

/-- A read that goes on answers or names an unmapped location. -/
theorem effect_of_exec_read {i : Instr} {s t : State} (hi : i.isRead = true) (h : exec i s = .next t) :
    Effect s i t := by
  obtain ⟨hwf, v, rfl⟩ | ⟨hwf, rfl⟩ := exec_read_next hi h
  · exact .answer hi hwf h
  · have := Effect.error (s := s) (i := i) (f := .addr) ⟨hi, hwf⟩
    rwa [hi] at this

/-- An instruction that goes on has one of the effects. -/
theorem effect_of_exec {i : Instr} {s t : State} (h : exec i s = .next t) : Effect s i t := by
  cases i with
  | nop => exact execNop_next h ▸ .nop
  | setw v => exact execSetw_next h ▸ .setw v
  | seth v => exact execSeth_next h ▸ .seth v
  | clrerr m => exact execClrerr_next h ▸ .clrerr m
  | abort => exact execAbort_next h ▸ .advance .abort
  | start =>
    obtain ⟨hp, ⟨hbig, rfl⟩ | ⟨hw, hh, rfl⟩⟩ | ⟨hp, rfl⟩ := execStart_next h
    · exact .error (f := .size) ⟨rfl, hp, hbig⟩
    · exact .advance (.start hp hw hh)
    · exact .error (f := .seq) (not_or.2 hp)
  | push px =>
    obtain ⟨hp, hi, rfl⟩ | ⟨hp, rfl⟩ := execPush_next h
    · exact .advance (.push px hp hi)
    · exact .error (f := .seq) hp
  | rank =>
    obtain ⟨hp, rfl⟩ | ⟨hp, rfl⟩ := execRank_next h
    · exact .advance (.rank hp)
    · exact .error (f := .seq) hp
  | refine =>
    obtain ⟨hp, l2, hwalk, rfl⟩ | ⟨hp, rfl⟩ := execRefine_next h
    · exact .advance (.refine hp hwalk)
    · exact .error (f := .seq) hp
  | build =>
    obtain ⟨hp, rfl⟩ | ⟨hp, rfl⟩ := execBuild_next h
    · exact .advance (.build hp)
    · exact .error (f := .seq) hp
  | encode =>
    obtain ⟨hp, photo, hwalk, rfl⟩ | ⟨hp, rfl⟩ := execEncode_next h
    · exact .advance (.encode hp hwalk)
    · exact .error (f := .seq) hp
  | rdreg _ | rdpal _ | rdded _ | rdl2 _ _ | rdslot _ | rdl4 _ _ | rdphoto _ => exact effect_of_exec_read rfl h

theorem exec_of_advance {i : Instr} {s t : State} (h : Advance s i t) : exec i s = .next t := by
  cases h with
  | abort => rfl
  | start hp hw hh => exact (exec_start_of_admitted hp).trans (startChecked_of_fits hw hh)
  | push px hp hi => exact exec_push_of_admitted hp hi px
  | rank hp => exact exec_rank_of_filled hp
  | refine hp hwalk =>
    have hrun : exec .refine s = refinePass Config.limits s := inPhases_of_mem (by simpa using hp)
    rw [hrun, refinePass, hwalk]
  | build hp => exact exec_build_of_refined hp
  | encode hp hwalk =>
    have hrun : exec .encode s = encodePass Config.limits s := inPhases_of_mem (by simpa using hp)
    rw [hrun, encodePass, hwalk]

/-- Outside the phases that allow it a command or a `PUSH` raises `SEQ` (R90, R110). -/
theorem exec_of_not_admittedIn {i : Instr} {s : State} (h : ¬ admittedIn s.phase i) :
    exec i s = .next (raiseErr .seq s) := by
  cases i with
  | start =>
    have hp : ¬ (s.phase = .idle ∨ s.phase = .done) := h
    exact inPhases_of_not_mem (allowed := [.idle, .done]) (op := startChecked Config.limits) (by simpa using hp)
  | push px => exact exec_push_of_ne_fill h px
  | rank =>
    have hp : ¬ s.phase = .filled := h
    exact inPhases_of_not_mem (allowed := [.filled]) (op := selectDedicated) (by simpa using hp)
  | refine =>
    have hp : ¬ s.phase = .ranked := h
    exact inPhases_of_not_mem (allowed := [.ranked]) (op := (refinePass Config.limits)) (by simpa using hp)
  | build =>
    have hp : ¬ s.phase = .refined := h
    exact inPhases_of_not_mem (allowed := [.refined]) (op := buildPalette) (by simpa using hp)
  | encode =>
    have hp : ¬ s.phase = .built := h
    exact inPhases_of_not_mem (allowed := [.built]) (op := (encodePass Config.limits)) (by simpa using hp)
  | _ => exact absurd trivial h

theorem isRead_of_not_admittedIn {i : Instr} {p : Phase} (h : ¬ admittedIn p i) : i.isRead = false := by
  cases i with
  | start | push _ | rank | refine | build | encode => rfl
  | _ => exact absurd trivial h

/-- An error raised for its cause is all that the instruction does (R184). -/
theorem exec_of_causes {i : Instr} {f : ErrFlag} {s : State} (h : causes s i f) :
    exec i s = .next (raiseFor i.isRead f s) := by
  cases f with
  | size =>
    obtain ⟨rfl, hp, hbig⟩ := h
    exact (exec_start_of_admitted hp).trans (startChecked_of_oversize hbig)
  | seq =>
    rw [isRead_of_not_admittedIn h]
    exact exec_of_not_admittedIn h
  | illCmd => exact h.elim
  | addr =>
    obtain ⟨hread, hwf⟩ := h
    rw [hread]
    exact exec_of_not_wellFormed hwf s

/-- The effects are exactly what the instructions do. -/
theorem exec_next_iff {i : Instr} {s t : State} : exec i s = .next t ↔ Effect s i t := by
  refine ⟨effect_of_exec, fun h => ?_⟩
  cases h with
  | advance h => exact exec_of_advance h
  | nop => rfl
  | setw v => rfl
  | seth v => rfl
  | clrerr m => rfl
  | answer _ _ h => exact h
  | error h => exact exec_of_causes h

end Sys2Proof.Machine

/-! ### Errors: flags, causes, precision -/

namespace Sys2Proof.Machine

/-- Setting a flag sets its bit and no other (R184). -/
theorem getLsbD_setFlag (f : ErrFlag) (e : BitVec 4) (b : Nat) :
    (setFlag f e).getLsbD b = (e.getLsbD b || decide (b = errBit f)) := by
  rcases Nat.lt_or_ge b 4 with hb | hb
  · obtain rfl | rfl | rfl | rfl : b = 0 ∨ b = 1 ∨ b = 2 ∨ b = 3 := by omega
    all_goals cases f <;> simp [setFlag, errBit]
  · have hne : b ≠ errBit f := by cases f <;> simp only [errBit] <;> omega
    rw [BitVec.getLsbD_of_ge _ b hb, BitVec.getLsbD_of_ge _ b hb, decide_eq_false hne, Bool.or_false]

/-- Clearing flags sets none (R98). -/
theorem getLsbD_of_clearFlags {m e : BitVec 4} {b : Nat} (h : (clearFlags m e).getLsbD b = true) :
    e.getLsbD b = true := by
  rw [clearFlags, BitVec.getLsbD_and, Bool.and_eq_true] at h
  exact h.1

theorem raiseFor_err (read : Bool) (f : ErrFlag) (s : State) : (raiseFor read f s).err = setFlag f s.err := by
  cases read <;> rfl

theorem Advance.err_eq {i : Instr} {s t : State} (h : Advance s i t) : t.err = s.err := by
  cases h <;> rfl

/-- What becomes of `ERR`: an instruction keeps it, or is a `CLRERR`, or raises one error for its cause. -/
theorem Effect.err_cases {i : Instr} {s t : State} (h : Effect s i t) :
    t.err = s.err ∨ (∃ m, i = .clrerr m ∧ t.err = clearFlags m s.err) ∨
      ∃ f, causes s i f ∧ t = raiseFor i.isRead f s := by
  cases h with
  | advance h => exact .inl h.err_eq
  | nop => exact .inl rfl
  | setw v => exact .inl rfl
  | seth v => exact .inl rfl
  | clrerr m => exact .inr (.inl ⟨m, rfl, rfl⟩)
  | answer _ _ _ => exact .inl rfl
  | error h => exact .inr (.inr ⟨_, h, rfl⟩)

/-- A flag that an instruction newly sets is the flag of the error it raised. -/
theorem Effect.newly_set {i : Instr} {s t : State} {b : Nat} (h : Effect s i t) (hs : s.err.getLsbD b = false)
    (ht : t.err.getLsbD b = true) : ∃ f, b = errBit f ∧ causes s i f ∧ t = raiseFor i.isRead f s := by
  obtain hkeep | ⟨m, -, hclr⟩ | ⟨f, hcause, rfl⟩ := h.err_cases
  · rw [hkeep, hs] at ht
    cases ht
  · rw [hclr] at ht
    rw [getLsbD_of_clearFlags ht] at hs
    cases hs
  · rw [raiseFor_err, getLsbD_setFlag, hs, Bool.false_or, decide_eq_true_iff] at ht
    exact ⟨f, ht, hcause, rfl⟩

/-- Settles O34: each flag with the cause of its error. -/
theorem everyErrorHasItsCause : Obligations.EveryErrorHasItsCause := by
  intro s t i b h hs ht
  obtain ⟨f, rfl, hcause, -⟩ := (effect_of_exec h).newly_set hs ht
  cases f with
  | size =>
    obtain ⟨rfl, -, hbig⟩ := hcause
    exact .inl ⟨rfl, rfl, hbig⟩
  | seq =>
    refine .inr (.inl ⟨rfl, ?_⟩)
    cases i with
    | start => exact .inl ⟨rfl, not_or.1 hcause⟩
    | push px => exact .inr (.inl ⟨⟨px, rfl⟩, hcause⟩)
    | rank => exact .inr (.inr (.inl ⟨rfl, hcause⟩))
    | refine => exact .inr (.inr (.inr (.inl ⟨rfl, hcause⟩)))
    | build => exact .inr (.inr (.inr (.inr (.inl ⟨rfl, hcause⟩))))
    | encode => exact .inr (.inr (.inr (.inr (.inr ⟨rfl, hcause⟩))))
    | _ => exact absurd trivial hcause
  | illCmd => exact hcause.elim
  | addr => exact .inr (.inr ⟨rfl, hcause⟩)

/-- A rejected transaction raises one error, as a write or as a read by its `rw` bit (R77). -/
theorem rejectTransaction_of_decode {w : Txn} {r : Reject} (h : decode w = .error r) :
    ∃ f, ∀ s, rejectTransaction r s = raiseFor (!txnIsWrite w) f s := by
  obtain ⟨v, a, d, rfl⟩ := exists_makeTxn w
  rw [makeTxn_isWrite]
  cases v with
  | true =>
    rw [decode_write, decodeWrite_eq, decodeCommand_eq] at h
    split_ifs at h <;> obtain rfl := Except.error.inj h
    · exact ⟨.illCmd, fun _ => rfl⟩
    · exact ⟨.addr, fun _ => rfl⟩
  | false =>
    rw [decode_read, decodeRead_eq] at h
    split_ifs at h
    obtain rfl := Except.error.inj h
    exact ⟨.addr, fun _ => rfl⟩

/-- What a step can do to `ERR`: keep it, clear flags by `CLRERR` or reset, or raise one error and do nothing else. -/
theorem step_err_cases {s t : State} (h : step s = .next t) :
    t.err = s.err ∨ (∃ rest, s.hostIn = .reset :: rest ∧ t.err = 0) ∨
      (∃ w rest m, s.hostIn = .transaction w :: rest ∧ decode w = .ok (.clrerr m) ∧ t.err = clearFlags m s.err) ∨
      ∃ w rest f, s.hostIn = .transaction w :: rest ∧
        t = raiseFor (!txnIsWrite w) f { s with hostIn := rest, rdata := none } := by
  obtain ⟨-, rfl⟩ | ⟨rest, hin, rfl⟩ | ⟨w, rest, i, hin, hdec, hexec⟩ | ⟨w, rest, r, hin, hdec, rfl⟩ := step_next h
  · exact .inl rfl
  · exact .inr (.inl ⟨rest, hin, rfl⟩)
  · obtain hkeep | ⟨m, rfl, hclr⟩ | ⟨f, -, rfl⟩ := (effect_of_exec hexec).err_cases
    · exact .inl hkeep
    · exact .inr (.inr (.inl ⟨w, rest, m, hin, hdec, hclr⟩))
    · rw [isRead_of_decode hdec]
      exact .inr (.inr (.inr ⟨w, rest, f, hin, rfl⟩))
  · obtain ⟨f, hf⟩ := rejectTransaction_of_decode hdec
    exact .inr (.inr (.inr ⟨w, rest, f, hin, hf _⟩))

theorem clearFlags_sets_none (m e : BitVec 4) : clearFlags m e &&& ~~~e = 0 := by
  rw [clearFlags, BitVec.and_assoc, BitVec.and_comm (~~~m), ← BitVec.and_assoc, BitVec.and_not_self]
  exact BitVec.zero_and

/-- Settles O33: of what a step can do to `ERR` only raising an error sets a flag, and that is one operation. -/
theorem errorsArePrecise : Obligations.ErrorsArePrecise := by
  intro s t w rest hin h hnew
  obtain hkeep | ⟨_, hin', -⟩ | ⟨w', rest', m, -, -, hclr⟩ | ⟨w', rest', f, hin', rfl⟩ := step_err_cases h
  · rw [hkeep, BitVec.and_not_self] at hnew
    exact absurd rfl hnew
  · exact nomatch hin.symm.trans hin'
  · rw [hclr, clearFlags_sets_none] at hnew
    exact absurd rfl hnew
  · obtain ⟨⟨⟩, rfl⟩ := List.cons.inj (hin.symm.trans hin')
    refine ⟨f, _, rfl, ?_⟩
    cases txnIsWrite w <;> rfl

/-- Settles O35: of what a step can do to `ERR` only `CLRERR` and reset clear a flag. -/
theorem onlyClrerrAndResetClearFlags : Obligations.OnlyClrerrAndResetClearFlags := by
  intro s t h
  obtain hkeep | ⟨rest, hin, -⟩ | ⟨w, rest, m, hin, hdec, -⟩ | ⟨w, rest, f, -, rfl⟩ := step_err_cases h
  · exact .inl fun b hb => hkeep ▸ hb
  · exact .inr (.inl ⟨rest, hin⟩)
  · exact .inr (.inr ⟨w, rest, m, hin, hdec⟩)
  · refine .inl fun b hb => ?_
    rw [raiseFor_err, getLsbD_setFlag, hb, Bool.true_or]

end Sys2Proof.Machine

/-! ### What a read depends on -/

namespace Sys2Proof.Machine

theorem SameToHost.refl (s : State) : SameToHost s s := by
  constructor <;> intros <;> rfl

/-- Two states that no read but that of `ERR` can tell apart: the same to the host but for `ERR`, the pending inputs
and the data returned before. -/
def SameToReads (s t : State) : Prop :=
  SameToHost s { t with err := s.err, hostIn := s.hostIn, rdata := s.rdata }

theorem sameToReads_respond (v : Word) (s : State) : SameToReads s (respond v s) := SameToHost.refl s

theorem sameToReads_withErr (e : BitVec 4) (s : State) : SameToReads s (withErr e s) := SameToHost.refl s

theorem SameToHost.sameToReads {s t : State} (h : SameToHost s t) : SameToReads s t :=
  { h with err := rfl, hostIn := rfl, rdata := rfl }

/-- An answer is one word. -/
theorem eq_of_next_respond {v w : Word} {s : State}
    (h : (.next (respond v s) : Host.Outcome State Fault Refusal) = .next (respond w s)) : v = w := by
  injection h with h
  exact Option.some.inj (congrArg State.rdata h)

/-- A mapped register that answers a word holds it (R160). -/
theorem registerWord_of_exec_rdreg {a : BitVec 4} {v : Word} {s : State} (hwf : (Instr.rdreg a).wellFormed = true)
    (h : exec (.rdreg a) s = .next (respond v s)) : registerWord Config.limits a s = some v := by
  rcases hword : registerWord Config.limits a s with _ | w
  · exact nomatch hwf.symm.trans ((registerWord_eq_none_iff _ a s).1 hword)
  · rw [exec_rdreg_of_word hword] at h
    rw [eq_of_next_respond h]

section
variable {s : State} {i : BitVec 24} (hvalid : s.phase = .done ∧ i.toNat < s.npix.toNat)
include hvalid

theorem exec_rdphoto_of_byte (hi : i.toNat < Config.limits.maxN) :
    exec (.rdphoto i) s = .next (respond (photoWord (photoByte s.qPhoto i.toNat)) s) := by
  simp only [exec, execRdphoto, readPhotoOn, if_pos hvalid, photoRead_of_lt hi]

/-- A read of a valid photo that goes on is of an element that exists (R41). -/
theorem exists_byte_of_exec_rdphoto {t : State} (h : exec (.rdphoto i) s = .next t) :
    i.toNat < Config.limits.maxN := by
  by_contra hi
  simp only [exec, execRdphoto, readPhotoOn, if_pos hvalid, photoRead, if_neg hi] at h
  cases h

end

section
variable {s t : State} (hsame : SameToReads s t)
include hsame

/-- A control register reads the same; `ERR` if it is the same (R160). -/
theorem registerWord_congr (lim : Config.Limits) {a : BitVec 4} (herr : a = 2 → t.err = s.err) :
    registerWord lim a t = registerWord lim a s := by
  have hphase : t.phase = s.phase := hsame.phase
  have hwidth : t.width = s.width := hsame.width
  have hheight : t.height = s.height := hsame.height
  have hrunW : t.runW = s.runW := hsame.runW
  have hrunH : t.runH = s.runH := hsame.runH
  have hnpix : t.npix = s.npix := hsame.npix
  have hpixIdx : t.pixIdx = s.pixIdx := hsame.pixIdx
  by_cases ha : a = 2
  · subst ha
    exact congrArg (fun e => some (errWord e)) (herr rfl)
  · have hne : a.toNat ≠ 2 := fun h => ha (BitVec.eq_of_toNat_eq h)
    simp only [registerWord, hphase, hwidth, hheight, hrunW, hrunH, hnpix, hpixIdx]
    split
    case h_3 h2 => exact absurd h2 hne
    all_goals rfl

/-- A debug window reads the same: in `IDLE` nothing, in every other phase an entry that is the same (R163 to R166). -/
theorem debugRead_congr {v w x : Word} (hv : s.phase ≠ .idle → w = v) (h : debugRead v s = .next (respond x s)) :
    debugRead w t = .next (respond x t) := by
  have hphase : t.phase = s.phase := hsame.phase
  rw [debugRead, hphase, ← eq_of_next_respond h]
  split
  · rfl
  · rename_i hp
    rw [hv hp]

/-- A palette slot reads the same: its gate is `DONE`, where the palette is the same (R161). -/
theorem exec_rdpal_congr {slot : BitVec 8} {x : Word} (hslot : ¬ 192 ≤ slot.toNat)
    (h : exec (.rdpal slot) s = .next (respond x s)) : exec (.rdpal slot) t = .next (respond x t) := by
  have hphase : t.phase = s.phase := hsame.phase
  rw [exec_rdpal_of_mapped hslot] at h ⊢
  rw [hphase, ← eq_of_next_respond h]
  split
  · rename_i hp
    rw [show readColour t.palette slot.toNat = readColour s.palette slot.toNat from
      hsame.palette (by simp [hp]) slot.toNat]
  · rfl

/-- A photo byte reads the same: its gate is a valid photo, whose bytes are the same (R162). -/
theorem exec_rdphoto_congr {i : BitVec 24} {x : Word} (h : exec (.rdphoto i) s = .next (respond x s)) :
    exec (.rdphoto i) t = .next (respond x t) := by
  have hphase : t.phase = s.phase := hsame.phase
  have hnpix : t.npix = s.npix := hsame.npix
  by_cases hvalid : s.phase = .done ∧ i.toNat < s.npix.toNat
  · have hbyte : photoByte t.qPhoto i.toNat = photoByte s.qPhoto i.toNat := hsame.qPhoto hvalid.1 _ hvalid.2
    have hexists := exists_byte_of_exec_rdphoto hvalid h
    rw [exec_rdphoto_of_byte hvalid hexists] at h
    rw [exec_rdphoto_of_byte (by rwa [hphase, hnpix]) hexists, hbyte, eq_of_next_respond h]
  · rw [exec_rdphoto_of_not_valid hvalid] at h
    rw [exec_rdphoto_of_not_valid (by rwa [hphase, hnpix]), eq_of_next_respond h]

/-- A read answers the same from states that no read tells apart. -/
theorem exec_read_congr {i : Instr} {v : Word} (herr : readsErr i → t.err = s.err) (hread : i.isRead = true)
    (hwf : i.wellFormed = true) (h : exec i s = .next (respond v s)) : exec i t = .next (respond v t) := by
  cases i with
  | rdreg a =>
    refine exec_rdreg_of_word ?_
    rw [registerWord_congr hsame Config.limits fun ha => herr (congrArg _ ha)]
    exact registerWord_of_exec_rdreg hwf h
  | rdpal slot => exact exec_rdpal_congr hsame (by simpa [Instr.wellFormed] using hwf) h
  | rdphoto n => exact exec_rdphoto_congr hsame h
  | rdded slot =>
    refine debugRead_congr hsame (fun hp => ?_) h
    exact congrArg keyWord (hsame.dedKey hp slot.toNat)
  | rdl2 j f =>
    refine debugRead_congr hsame (fun hp => ?_) h
    exact congrArg (bucketField · f) (hsame.l2 hp j.toNat)
  | rdslot k =>
    refine debugRead_congr hsame (fun hp => ?_) h
    exact congrArg slotWord (hsame.slotMap hp k)
  | rdl4 k f =>
    refine debugRead_congr hsame (fun hp => ?_) h
    exact congrArg (bucketField · f) (hsame.l4 hp k.toNat)
  | _ => cases hread

end

/-- Settles O32: a mapped read only answers, and no read depends on the data answered before. -/
theorem mappedReadsHaveNoSideEffect : Obligations.MappedReadsHaveNoSideEffect := by
  intro s t i hread hwf h
  obtain ⟨-, v, rfl⟩ | ⟨hnot, -⟩ := exec_read_next hread h
  · exact ⟨rfl, nofun, exec_read_congr (sameToReads_respond v s) (fun _ => rfl) hread hwf h⟩
  · exact nomatch hwf.symm.trans hnot

/-! ### `ERR` is read by the host alone -/

theorem Advance.withErr {i : Instr} {s t : State} (h : Advance s i t) (e : BitVec 4) :
    Advance (withErr e s) i (withErr e t) := by
  cases h with
  | abort => exact .abort
  | start hp hw hh => exact .start hp hw hh
  | push px hp hi => exact .push px hp hi
  | rank hp => exact .rank hp
  | refine hp hwalk => exact .refine hp hwalk
  | build hp => exact .build hp
  | encode hp hwalk => exact .encode hp hwalk

theorem causes_withErr {s : State} {i : Instr} {f : ErrFlag} (h : causes s i f) (e : BitVec 4) :
    causes (withErr e s) i f := by
  cases f <;> exact h

theorem raiseFor_withErr (read : Bool) (f : ErrFlag) (e : BitVec 4) (s : State) :
    raiseFor read f (withErr e s) = withErr (setFlag f e) (raiseFor read f s) := by
  cases read <;> rfl

/-- Settles O36: no guard and no result of an effect mentions `ERR`, but for `ERR` itself. -/
theorem errNeverChangesBehaviour : Obligations.ErrNeverChangesBehaviour := by
  intro i s t e hunread h
  simp only [exec_next_iff] at h ⊢
  cases h with
  | advance h => exact ⟨e, .advance (h.withErr e)⟩
  | nop => exact ⟨e, .nop⟩
  | setw v => exact ⟨e, .setw v⟩
  | seth v => exact ⟨e, .seth v⟩
  | clrerr m => exact ⟨clearFlags m e, .clrerr m⟩
  | answer hread hwf h =>
    exact ⟨e, .answer hread hwf (exec_read_congr (sameToReads_withErr e s) (fun hr => absurd hr hunread) hread hwf h)⟩
  | @error _ f h =>
    refine ⟨setFlag f e, ?_⟩
    rw [← raiseFor_withErr]
    exact .error (causes_withErr h e)

end Sys2Proof.Machine

/-! ### Run invariants: the base case, and what no run depends on -/

namespace Sys2Proof.Machine

/-- The part of the state that belongs to a run: all but the flags, the size written for the next run and the port. -/
def runPart (s : State) : State := { s with err := 0, width := 0, height := 0, hostIn := [], rdata := none }

theorem inv_runPart {lim : Config.Limits} {s : State} : Inv lim (runPart s) ↔ Inv lim s :=
  ⟨fun h => { h with memory := { h.memory with } }, fun h => { h with memory := { h.memory with } }⟩

theorem runInv_runPart {s : State} : RunInv (runPart s) ↔ RunInv s :=
  ⟨fun h => { h with }, fun h => { h with }⟩

section
variable {s t : State} (h : runPart t = runPart s)
include h

/-- Both invariants speak of the run alone. -/
theorem Inv.of_runPart {lim : Config.Limits} (hinv : Inv lim s) : Inv lim t :=
  inv_runPart.1 (h ▸ inv_runPart.2 hinv)

theorem RunInv.of_runPart (hrun : RunInv s) : RunInv t :=
  runInv_runPart.1 (h ▸ runInv_runPart.2 hrun)

end

theorem runPart_raiseFor (read : Bool) (f : ErrFlag) (s : State) : runPart (raiseFor read f s) = runPart s := by
  cases read <;> rfl

theorem runPart_rejectTransaction (r : Reject) (s : State) : runPart (rejectTransaction r s) = runPart s := by
  cases r <;> rfl

/-- An instruction leaves the run as it is, or moves it on. -/
theorem Effect.runPart_or_advance {i : Instr} {s t : State} (h : Effect s i t) :
    runPart t = runPart s ∨ Advance s i t := by
  cases h with
  | advance h => exact .inr h
  | nop => exact .inl rfl
  | setw v => exact .inl rfl
  | seth v => exact .inl rfl
  | clrerr m => exact .inl rfl
  | answer _ _ _ => exact .inl rfl
  | error _ => exact .inl (runPart_raiseFor ..)

/-- The state in which an input taken from the port is run. -/
def admitted (s : State) (rest : List HostInput) : State := { s with hostIn := rest, rdata := none }

theorem runPart_admitted (s : State) (rest : List HostInput) : runPart (admitted s rest) = runPart s := rfl

theorem step_of_ok {s : State} {w : Txn} {rest : List HostInput} {i : Instr} (hin : s.hostIn = .transaction w :: rest)
    (hdec : decode w = .ok i) : step s = exec i (admitted s rest) := by
  simp only [step, admitInput_cons hin, hdec, admitted]

theorem step_of_error {s : State} {w : Txn} {rest : List HostInput} {r : Reject}
    (hin : s.hostIn = .transaction w :: rest) (hdec : decode w = .error r) :
    step s = .next (rejectTransaction r (admitted s rest)) := by
  simp only [step, admitInput_cons hin, hdec, admitted]

/-- Settles O5: one branch of the step. -/
theorem stepRunsDecodedInstruction : Obligations.StepRunsDecodedInstruction :=
  fun _ _ _ _ => step_of_ok

/-- A step leaves the run as it is, resets it, or moves it on by the instruction that the host's oldest input decodes
to. -/
theorem step_run_cases {s t : State} (h : step s = .next t) :
    runPart t = runPart s ∨ runPart t = runPart State.reset ∨
      ∃ w rest i, s.hostIn = .transaction w :: rest ∧ decode w = .ok i ∧ Advance (admitted s rest) i t := by
  obtain ⟨-, rfl⟩ | ⟨rest, -, rfl⟩ | ⟨w, rest, i, hin, hdec, hexec⟩ | ⟨w, rest, r, -, -, rfl⟩ := step_next h
  · exact .inl rfl
  · exact .inr (.inl rfl)
  · obtain hsame | hadv := (effect_of_exec hexec).runPart_or_advance
    · exact .inl hsame
    · exact .inr (.inr ⟨w, rest, i, hin, hdec, hadv⟩)
  · exact .inl (runPart_rejectTransaction ..)

/-- A `PUSH` ends in `FILL` or `FILLED` (R112). -/
theorem phaseAfterPush_cases {s : State} (hp : s.phase = .fill) :
    phaseAfterPush s = .fill ∨ phaseAfterPush s = .filled := by
  rw [phaseAfterPush, hp]
  split
  · exact .inr rfl
  · exact .inl rfl

/-- Only `ENCODE` moves a run on to `DONE` (R99, R153). -/
theorem Advance.eq_encode_of_done {i : Instr} {s t : State} (h : Advance s i t) (hdone : t.phase = .done) :
    i = .encode ∧ s.phase = .built := by
  cases h with
  | encode hp _ => exact ⟨rfl, hp⟩
  | start _ _ _ => obtain hp | hp := beginRun_phase_cases s <;> exact nomatch hp.symm.trans hdone
  | push px hp _ => obtain hp | hp := phaseAfterPush_cases hp <;> exact nomatch hp.symm.trans hdone
  | _ => cases hdone

/-- Settles O16: a step that leaves the run leaves the photo; of those that do not, only `ENCODE` ends in `DONE`. -/
theorem validPhotoIsFinal : Obligations.ValidPhotoIsFinal := by
  intro s t h hdone
  obtain hsame | hreset | ⟨w, rest, i, hin, hdec, hadv⟩ := step_run_cases h
  · have hphase : (runPart t).phase = (runPart s).phase := congrArg State.phase hsame
    exact .inr ⟨hphase.symm.trans hdone, (congrArg State.runW hsame :), (congrArg State.runH hsame :),
      (congrArg State.npix hsame :), (congrArg State.palette hsame :), (congrArg State.qPhoto hsame :),
      (congrArg State.slotMap hsame :), (congrArg State.pixCache hsame :)⟩
  · have hphase : (runPart t).phase = .idle := congrArg State.phase hreset
    exact nomatch hphase.symm.trans hdone
  · obtain ⟨rfl, hp⟩ := hadv.eq_encode_of_done hdone
    exact .inl ⟨hp, w, rest, hin, hdec⟩

/-! ### The register and memory invariant -/

theorem reset_inv (lim : Config.Limits) : Inv lim State.reset where
  memory := reset_memoryWf lim
  runW_le := Nat.zero_le _
  runH_le := Nat.zero_le _
  npix_eq := rfl
  pixIdx_le := Nat.le_refl _
  pixel_due := nofun
  pass_complete h := absurd rfl h

/-- In `IDLE` no table holds anything of a run (R24). -/
theorem runInv_of_idle {s : State} (h : s.phase = .idle) : RunInv s where
  coarse hp := absurd h hp
  fineCleared hp := absurd h hp
  ranked hp := by simp [afterRank, h] at hp
  fine hp := by simp [afterRefine, h] at hp
  paletteCleared hp := absurd h hp
  averaged hp := by simp [afterBuild, h] at hp
  encoded hp := nomatch h.symm.trans hp

/-- Settles O37: at reset nothing is listed, every register is 0 and no run is in progress. -/
theorem resetMeetsInvariants : Obligations.ResetMeetsInvariants :=
  ⟨reset_inv Config.limits, runInv_of_idle rfl⟩

theorem refineWalk_keeps_wf {lim : Config.Limits} {s : State} {l2 : Table Bucket} (hinv : Inv lim s)
    (h : refineWalk lim s s.npix.toNat = .ok l2) : Memory.wf Bucket.zero Config.numL2 l2 := by
  obtain ⟨l2', hwalk, hwf, -⟩ := refineWalk_completes lim s s.npix.toNat hinv.npix_le_maxN
  obtain rfl := Except.ok.inj (h.symm.trans hwalk)
  exact hwf hinv.memory.l2

/-- Under the invariant every pixel of the run has a place, below `NPIX` and its own (R13, R47). -/
theorem Inv.photoPlace_oneToOne {lim : Config.Limits} {s : State} (hinv : Inv lim s) :
    (∀ n, n < s.npix.toNat → photoAddr s.runW.toNat s.runH.toNat n = some (photoPlace s.runW.toNat s.runH.toNat n) ∧
      photoPlace s.runW.toNat s.runH.toNat n < s.npix.toNat) ∧
    ∀ n m, n < s.npix.toNat → m < s.npix.toNat →
      photoPlace s.runW.toNat s.runH.toNat n = photoPlace s.runW.toNat s.runH.toNat m → n = m := by
  rw [hinv.npix_eq]
  exact ⟨fun n hn => ⟨photoAddr_eq_photoPlace hn, photoPlace_lt hn⟩, fun n m => photoPlace_inj⟩

theorem encodeWalk_keeps_wf {lim : Config.Limits} {s : State} {photo : Table Byte} (hinv : Inv lim s)
    (h : encodeWalk lim s s.npix.toNat = .ok photo) : Memory.wf (0 : Byte) lim.maxN photo := by
  obtain ⟨hplace, hinj⟩ := hinv.photoPlace_oneToOne
  obtain ⟨photo', hwalk, hwf, -⟩ :=
    encodeWalk_completes lim s (photoPlace s.runW.toNat s.runH.toNat) s.npix.toNat hinv.npix_le_maxN
      (fun n hn => (hplace n hn).imp_right fun hlt => hlt.trans_le hinv.npix_le_maxN) hinj
  obtain rfl := Except.ok.inj (h.symm.trans hwalk)
  exact hwf hinv.memory.qPhoto

/-- A new run waits for a pixel exactly when it has one (R94). -/
theorem beginRun_phase_eq_fill_iff (s : State) :
    (beginRun s).phase = .fill ↔ 1 ≤ (s.width * s.height).toNat := by
  rw [beginRun_phase]
  split
  · rename_i h
    exact iff_of_true rfl h
  · rename_i h
    exact iff_of_false nofun h

/-- `FILL` goes on exactly while a pixel is due (R112). -/
theorem phaseAfterPush_eq_fill_iff {s : State} (hp : s.phase = .fill) :
    phaseAfterPush s = .fill ↔ s.pixIdx + 1 ≠ s.npix := by
  rw [phaseAfterPush, hp]
  split
  · rename_i h
    exact iff_of_false nofun (not_not.2 h)
  · rename_i h
    exact iff_of_true rfl h

/-- A new run has empty tables, dimensions that passed the check and no pixel yet (R94). -/
theorem Inv.beginRun {s : State} (hinv : Inv Config.limits s) (hw : s.width.toNat ≤ Config.limits.maxW)
    (hh : s.height.toNat ≤ Config.limits.maxH) : Inv Config.limits (beginRun s) where
  memory := { hinv.memory with
    l4 := Memory.wf_nil _ _
    l2 := Memory.wf_nil _ _
    dedKey := Memory.wf_nil _ _
    slotMap := Memory.wf_nil _ _
    palette := Memory.wf_nil _ _ }
  runW_le := hw
  runH_le := hh
  npix_eq := (toNat_mul_of_within_limits hw hh).1
  pixIdx_le := Nat.zero_le _
  pixel_due hp := (beginRun_phase_eq_fill_iff s).1 hp
  pass_complete _ hp := by
    have hzero : ¬ 1 ≤ (s.width * s.height).toNat := fun h => hp ((beginRun_phase_eq_fill_iff s).2 h)
    exact (BitVec.eq_of_toNat_eq (Nat.eq_zero_of_not_pos hzero)).symm

/-- The pixel taken is counted in an existing bucket, cached at an existing element, and is the last or leaves one due
(R111, R112). -/
theorem Inv.push {s : State} (hinv : Inv Config.limits s) (px : Pixel) (hp : s.phase = .fill)
    (hi : s.pixIdx.toNat < Config.limits.maxN) :
    Inv Config.limits (takePixel px s) where
  memory := { hinv.memory with
    l4 := Memory.wf_accumulate hinv.memory.l4 (k4 px).isLt px
    pixCache := Memory.wf_writeEntry 0 hinv.memory.pixCache hi px }
  runW_le := hinv.runW_le
  runH_le := hinv.runH_le
  npix_eq := hinv.npix_eq
  pixIdx_le := (toNat_pixIdx_succ (hinv.pixel_due hp)).trans_le (hinv.pixel_due hp)
  pixel_due hfill := by
    have hne : s.pixIdx + 1 ≠ s.npix := (phaseAfterPush_eq_fill_iff hp).1 hfill
    have hle := (toNat_pixIdx_succ (hinv.pixel_due hp)).trans_le (hinv.pixel_due hp)
    exact Nat.lt_of_le_of_ne hle fun h => hne (BitVec.eq_of_toNat_eq h)
  pass_complete _ hnot := not_not.1 (mt (phaseAfterPush_eq_fill_iff hp).2 hnot)

theorem Inv.advance {i : Instr} {s t : State} (hinv : Inv Config.limits s) (h : Advance s i t) :
    Inv Config.limits t := by
  cases h with
  | abort =>
    exact { hinv with
      memory := { hinv.memory with }
      pixel_due := nofun
      pass_complete := fun h => absurd rfl h }
  | start hp hw hh => exact hinv.beginRun hw hh
  | push px hp hi => exact hinv.push px hp hi
  | rank hp =>
    exact { hinv with
      memory := { hinv.memory with dedKey := Memory.wf_dedKeyTable s.l4, slotMap := Memory.wf_slotMapTable s.l4 }
      pixel_due := nofun
      pass_complete := fun _ _ => hinv.pass_complete (by simp [hp]) (by simp [hp]) }
  | refine hp hwalk =>
    exact { hinv with
      memory := { hinv.memory with l2 := refineWalk_keeps_wf hinv hwalk }
      pixel_due := nofun
      pass_complete := fun _ _ => hinv.pass_complete (by simp [hp]) (by simp [hp]) }
  | build hp =>
    exact { hinv with
      memory := { hinv.memory with
        palette := Memory.wf_sharedRange s (Memory.wf_dedicatedRange s hinv.memory.palette) }
      pixel_due := nofun
      pass_complete := fun _ _ => hinv.pass_complete (by simp [hp]) (by simp [hp]) }
  | encode hp hwalk =>
    exact { hinv with
      memory := { hinv.memory with qPhoto := encodeWalk_keeps_wf hinv hwalk }
      pixel_due := nofun
      pass_complete := fun _ _ => hinv.pass_complete (by simp [hp]) (by simp [hp]) }

/-- A read goes on where every byte of the photo exists (R41, R162). -/
theorem exec_read_goes_on {i : Instr} {s : State} (hread : i.isRead = true) (hn : s.npix.toNat ≤ Config.limits.maxN) :
    ∃ t, exec i s = .next t := by
  cases i with
  | rdreg a =>
    rcases hword : registerWord Config.limits a s with _ | v
    · exact ⟨_, exec_of_not_wellFormed (i := .rdreg a) ((registerWord_eq_none_iff _ a s).1 hword) s⟩
    · exact ⟨_, exec_rdreg_of_word hword⟩
  | rdpal slot =>
    by_cases hslot : 192 ≤ slot.toNat
    · exact ⟨_, if_pos hslot⟩
    · exact ⟨_, exec_rdpal_of_mapped hslot s⟩
  | rdphoto n =>
    by_cases hvalid : s.phase = .done ∧ n.toNat < s.npix.toNat
    · exact ⟨_, exec_rdphoto_of_valid hvalid hn⟩
    · exact ⟨_, exec_rdphoto_of_not_valid hvalid⟩
  | rdded _ | rdl2 _ _ | rdslot _ | rdl4 _ _ => exact ⟨_, rfl⟩
  | _ => cases hread

/-- An instruction whose operation goes on in the phases that allow it goes on in all: elsewhere it raises `SEQ`. -/
theorem exec_goes_on_of_admittedIn {i : Instr} {s : State} (h : admittedIn s.phase i → ∃ t, exec i s = .next t) :
    ∃ t, exec i s = .next t := by
  by_cases hp : admittedIn s.phase i
  · exact h hp
  · exact ⟨_, exec_of_not_admittedIn hp⟩

/-- Under the invariant no instruction faults: every element of a RAM that one uses exists (R41, R184). -/
theorem Inv.exec_goes_on {s : State} (hinv : Inv Config.limits s) (i : Instr) : ∃ t, exec i s = .next t := by
  refine exec_goes_on_of_admittedIn fun hp => ?_
  cases i with
  | start =>
    by_cases hbig : Config.limits.maxW < s.width.toNat ∨ Config.limits.maxH < s.height.toNat
    · exact ⟨_, exec_of_causes (f := .size) ⟨rfl, hp, hbig⟩⟩
    · exact ⟨_, exec_of_advance (.start hp (by omega) (by omega))⟩
  | push px => exact ⟨_, exec_push_of_admitted hp ((hinv.pixel_due hp).trans_le hinv.npix_le_maxN) px⟩
  | rank => exact ⟨_, exec_rank_of_filled hp⟩
  | refine =>
    obtain ⟨l2, hexec, -⟩ := exec_refine_of_ranked hp hinv.npix_le_maxN
    exact ⟨_, hexec⟩
  | build => exact ⟨_, exec_build_of_refined hp⟩
  | encode =>
    obtain ⟨photo, hexec, -⟩ := exec_encode_of_built hinv hp
    exact ⟨_, hexec⟩
  | nop | abort | setw _ | seth _ | clrerr _ => exact ⟨_, rfl⟩
  | rdreg _ | rdpal _ | rdded _ | rdl2 _ _ | rdslot _ | rdl4 _ _ | rdphoto _ =>
    exact exec_read_goes_on rfl hinv.npix_le_maxN

/-- Taking an input from the port leaves the run as it is (R48). -/
theorem Inv.admitted {lim : Config.Limits} {s : State} (hinv : Inv lim s) (rest : List HostInput) :
    Inv lim (admitted s rest) := hinv.of_runPart (runPart_admitted s rest)

/-- Under the invariant every step goes on: it waits, resets, runs an instruction, or turns a word away. -/
theorem Inv.step_goes_on {s : State} (hinv : Inv Config.limits s) : ∃ t, step s = .next t := by
  rcases hin : s.hostIn with _ | ⟨_ | _, rest⟩
  · exact ⟨s, step_hostIn_nil hin⟩
  · rename_i w
    rcases hdec : decode w with r | i
    · exact ⟨_, step_of_error hin hdec⟩
    · rw [step_of_ok hin hdec]
      exact (hinv.admitted rest).exec_goes_on i
  · exact ⟨_, step_hostIn_reset hin⟩

theorem Inv.step {s t : State} (hinv : Inv Config.limits s) (h : step s = .next t) : Inv Config.limits t := by
  obtain hsame | hreset | ⟨w, rest, i, -, -, hadv⟩ := step_run_cases h
  · exact hinv.of_runPart hsame
  · exact (reset_inv Config.limits).of_runPart hreset
  · exact (hinv.admitted rest).advance hadv

/-- Settles O38: the walks of pass 2 and pass 3 stay inside the RAMs, and each instruction writes inside its tables. -/
theorem everyStepGoesOnAndKeepsInv : Obligations.EveryStepGoesOnAndKeepsInv := by
  intro s hinv
  obtain ⟨t, h⟩ := hinv.step_goes_on
  exact ⟨t, h, hinv.step h⟩

end Sys2Proof.Machine

/-! ### What the tables hold in each phase of a run -/

namespace Sys2Proof.Machine

theorem holdsTotals_zero_nil : HoldsTotals Bucket.zero [] := ⟨rfl, rfl, rfl, rfl⟩

/-- A bucket with the totals of fewer than `MAX_N` pixels takes one more (R6, R111). -/
theorem HoldsTotals.addPixel {b : Bucket} {ps : List Pixel} (h : HoldsTotals b ps)
    (hlen : ps.length ≤ Config.limits.maxN) (px : Pixel) : HoldsTotals (addPixel px b) (ps ++ [px]) := by
  obtain ⟨hr, hg, hb, hcount⟩ := h.addPixel_exact hlen px
  constructor
  · simp [hr, h.sumR]
  · simp [hg, h.sumG]
  · simp [hb, h.sumB]
  · simp [hcount, h.count]

section
variable {s : State} {px : Pixel}

/-- The stream after a `PUSH` is the stream before it and the new pixel (R22, R112). -/
theorem streamPixels_push {t : State} (hcache : t.pixCache = writeEntry 0 s.pixCache s.pixIdx.toNat px)
    (p : Pixel → Bool) :
    streamPixels t (s.pixIdx.toNat + 1) p = streamPixels s s.pixIdx.toNat p ++ if p px then [px] else [] := by
  have hold : ∀ n, n < s.pixIdx.toNat → cachedPixel t.pixCache n = cachedPixel s.pixCache n := fun n hn => by
    rw [hcache, cachedPixel_write, if_neg hn.ne]
  have hnew : cachedPixel t.pixCache s.pixIdx.toNat = px := by rw [hcache, cachedPixel_write, if_pos rfl]
  rw [streamPixels_succ, streamPixels_congr hold, hnew]

/-- The tables of a run that still takes pixels or has just taken them all, or has none (R94, R112). -/
theorem runInv_of_filling (hp : s.phase = .fill ∨ s.phase = .filled)
    (hcoarse : ∀ k : CoarseKey,
      HoldsTotals (readBucket s.l4 k.toNat) (streamPixels s s.pixIdx.toNat fun px => k4 px == k))
    (hfine : ∀ j : FineKey, readBucket s.l2 j.toNat = Bucket.zero)
    (hpalette : ∀ slot, readColour s.palette slot = Colour.zero) : RunInv s where
  coarse _ := hcoarse
  fineCleared _ _ := hfine
  ranked h := by obtain hp | hp := hp <;> simp [afterRank, hp] at h
  fine h := by obtain hp | hp := hp <;> simp [afterRefine, hp] at h
  paletteCleared _ _ := hpalette
  averaged h := by obtain hp | hp := hp <;> simp [afterBuild, hp] at h
  encoded h := by obtain hp | hp := hp <;> exact nomatch hp.symm.trans h

theorem runInv_beginRun (s : State) : RunInv (beginRun s) :=
  runInv_of_filling (beginRun_phase_cases s) (fun _ => holdsTotals_zero_nil) (fun _ => rfl) fun _ => rfl

end

/-- A `PUSH` keeps the totals of each bucket those of the stream (R24, R111). -/
theorem RunInv.push {s : State} (hrun : RunInv s) (hinv : Inv Config.limits s) (px : Pixel) (hp : s.phase = .fill) :
    RunInv (takePixel px s) := by
  have hidle : s.phase ≠ .idle := by simp [hp]
  refine runInv_of_filling (phaseAfterPush_cases hp) (fun k => ?_)
    (hrun.fineCleared hidle (by simp [hp, afterRefine])) (hrun.paletteCleared hidle (by simp [hp, afterBuild]))
  have hlen : (streamPixels s s.pixIdx.toNat fun px => k4 px == k).length ≤ Config.limits.maxN :=
    ((length_streamPixels_le ..).trans hinv.pixIdx_le).trans hinv.npix_le_maxN
  show HoldsTotals (readBucket (accumulate s.l4 (k4 px).toNat px) k.toNat) (streamPixels _ (s.pixIdx + 1).toNat _)
  rw [toNat_pixIdx_succ (hinv.pixel_due hp), streamPixels_push (px := px) rfl, readBucket_accumulate_key]
  by_cases hk : k4 px = k
  · rw [if_pos hk.symm, if_pos (beq_iff_eq.2 hk)]
    exact (hrun.coarse hidle k).addPixel hlen px
  · rw [if_neg fun h => hk h.symm, if_neg (by simpa using hk), List.append_nil]
    exact hrun.coarse hidle k

/-- A slot that `BUILD` finds cleared ends with the colour of its bucket, empty or not (R141, R142). -/
theorem readColour_build_of_cleared {s : State} (hcleared : ∀ slot, readColour s.palette slot = Colour.zero)
    {slot : Nat} (hslot : slot < 192) :
    readColour (sharedRange s (dedicatedRange s s.palette)) slot = meanColour (slotBucket s slot) := by
  rw [readColour_sharedRange_dedicatedRange]
  by_cases hcount : (slotBucket s slot).count.toNat = 0
  · rw [if_neg fun h => h.2 hcount, hcleared, meanColour, if_pos hcount]
  · rw [if_pos ⟨hslot, hcount⟩]

theorem RunInv.rank {s : State} (hrun : RunInv s) (hp : s.phase = .filled) :
    RunInv { s with
      dedKey := dedKeyTable (dedicatedKeys s.l4), slotMap := slotMapTable (dedicatedKeys s.l4), phase := .ranked } where
  coarse _ := hrun.coarse (by simp [hp])
  fineCleared _ _ := hrun.fineCleared (by simp [hp]) (by simp [hp, afterRefine])
  ranked _ := recordsRanking_of_sorted_tables rfl rfl
  fine h := by simp [afterRefine] at h
  paletteCleared _ _ := hrun.paletteCleared (by simp [hp]) (by simp [hp, afterBuild])
  averaged h := by simp [afterBuild] at h
  encoded h := nomatch h

theorem RunInv.build {s : State} (hrun : RunInv s) (hp : s.phase = .refined) :
    RunInv { s with palette := sharedRange s (dedicatedRange s s.palette), phase := .built } where
  coarse _ := hrun.coarse (by simp [hp])
  fineCleared _ h := absurd (.inr (.inl rfl)) h
  ranked _ := hrun.ranked (.inr (.inl hp))
  fine _ := hrun.fine (.inl hp)
  paletteCleared _ h := absurd (.inl rfl) h
  averaged _ slot hslot :=
    readColour_build_of_cleared (hrun.paletteCleared (by simp [hp]) (by simp [hp, afterBuild])) hslot
  encoded h := nomatch h

theorem RunInv.refine {s : State} {l2 : Table Bucket} (hrun : RunInv s) (hinv : Inv Config.limits s)
    (hp : s.phase = .ranked) (hwalk : refineWalk Config.limits s s.npix.toNat = .ok l2) :
    RunInv { s with l2 := l2, phase := .refined } where
  coarse _ := hrun.coarse (by simp [hp])
  fineCleared _ h := absurd (.inl rfl) h
  ranked _ := hrun.ranked (.inl hp)
  fine _ j := by
    obtain ⟨t, hexec, htotals, -⟩ := refineAddsUndedicatedPixels s hp hinv.npix_le_maxN
    obtain rfl := Host.Outcome.next.inj (hexec.symm.trans (exec_of_advance (.refine hp hwalk)))
    exact ((htotals j _ rfl).2 hinv hrun).2
  paletteCleared _ _ := hrun.paletteCleared (by simp [hp]) (by simp [hp, afterBuild])
  averaged h := by simp [afterBuild] at h
  encoded h := nomatch h

/-- Pass 3 leaves the index byte of every pixel at its place (R152). -/
theorem encodeWalk_bytes {s : State} {photo : Table Byte} (hinv : Inv Config.limits s) (hp : s.phase = .built)
    (hwalk : encodeWalk Config.limits s s.npix.toNat = .ok photo) {n : Nat} (hn : n < s.npix.toNat) :
    photoByte photo (photoPlace s.runW.toNat s.runH.toNat n) = indexOf s.slotMap (cachedPixel s.pixCache n) := by
  obtain ⟨photo', hexec, hbytes, -⟩ := exec_encode_of_built hinv hp
  have hsame := Host.Outcome.next.inj (hexec.symm.trans (exec_of_advance (.encode hp hwalk)))
  obtain rfl : photo' = photo := congrArg State.qPhoto hsame
  exact hbytes n hn

theorem RunInv.encode {s : State} {photo : Table Byte} (hrun : RunInv s) (hinv : Inv Config.limits s)
    (hp : s.phase = .built) (hwalk : encodeWalk Config.limits s s.npix.toNat = .ok photo) :
    RunInv { s with qPhoto := photo, phase := .done } where
  coarse _ := hrun.coarse (by simp [hp])
  fineCleared _ h := absurd (.inr (.inr rfl)) h
  ranked _ := hrun.ranked (.inr (.inr (.inl hp)))
  fine _ := hrun.fine (.inr (.inl hp))
  paletteCleared _ h := absurd (.inr rfl) h
  averaged _ := hrun.averaged (.inl hp)
  encoded _ n hn := ⟨_, (hinv.photoPlace_oneToOne.1 n hn).1, encodeWalk_bytes hinv hp hwalk hn⟩

theorem RunInv.advance {i : Instr} {s t : State} (hrun : RunInv s) (hinv : Inv Config.limits s) (h : Advance s i t) :
    RunInv t := by
  cases h with
  | abort => exact runInv_of_idle rfl
  | start hp hw hh => exact runInv_beginRun s
  | push px hp hi => exact hrun.push hinv px hp
  | rank hp => exact hrun.rank hp
  | refine hp hwalk => exact hrun.refine hinv hp hwalk
  | build hp => exact hrun.build hp
  | encode hp hwalk => exact hrun.encode hinv hp hwalk

/-- Settles O39: a step that moves the run on keeps it by the lemma of its instruction; every other leaves the run as it
is or resets it. -/
theorem everyStepKeepsRunInv : Obligations.EveryStepKeepsRunInv := by
  intro s t hinv hrun h
  obtain hsame | hreset | ⟨w, rest, i, -, -, hadv⟩ := step_run_cases h
  · exact hrun.of_runPart hsame
  · exact RunInv.of_runPart hreset (runInv_of_idle rfl)
  · exact (hrun.of_runPart (runPart_admitted s rest)).advance (hinv.admitted rest) hadv

end Sys2Proof.Machine

/-! ### The parameters and the reset registers -/

namespace Sys2Proof.Machine

/-- Settles O7: the reset state, register by register. -/
theorem resetRegisterValues : Obligations.ResetRegisterValues :=
  ⟨rfl, rfl, rfl, rfl, rfl, rfl, rfl, rfl, rfl⟩

/-- Settles O8: the parameters are the nearest legal ones to two unknown settings. -/
theorem instanceParametersAreLegal : Obligations.InstanceParametersAreLegal :=
  ⟨Config.limits_legal.1, Config.limits_legal.2.1, rfl, Config.maxN_le⟩

/-! ### The photo address -/

/-- Settles O27: inverting the rows stays in the photo and is its own inverse. -/
theorem photoAddressIsOneToOne : Obligations.PhotoAddressIsOneToOne := by
  intro w h
  refine ⟨fun n hn => ⟨_, photoAddr_eq_photoPlace hn, rfl, photoPlace_lt hn⟩, fun n m a hn hm han ham => ?_,
    fun a ha => ⟨photoPlace w h a, photoPlace_lt ha, ?_⟩⟩
  · rw [photoAddr_eq_photoPlace hn] at han
    rw [photoAddr_eq_photoPlace hm] at ham
    exact photoPlace_inj hn hm (Option.some.inj (han.trans ham.symm))
  · rw [photoAddr_eq_photoPlace (photoPlace_lt ha), photoPlace_photoPlace ha]

/-! ### What the recorded ranking says -/

section
variable {s : State} (h : RecordsRanking s)
include h

/-- A key is dedicated when fewer than 128 keys come before it (R122). -/
theorem RecordsRanking.sel_iff (k : CoarseKey) : (readSlot s.slotMap k).sel = true ↔ rankOf s.l4 k.toNat < 128 := by
  have hk := h k
  split at hk
  · rename_i hrank
    rw [hk.2]
    exact iff_of_true rfl hrank
  · rename_i hrank
    rw [hk]
    exact iff_of_false nofun hrank

/-- The slot of a dedicated key is its rank (R122). -/
theorem RecordsRanking.slot_eq {k : CoarseKey} (hrank : rankOf s.l4 k.toNat < 128) :
    readSlot s.slotMap k = ⟨true, BitVec.ofNat 7 (rankOf s.l4 k.toNat)⟩ := by
  have hk := h k
  rw [if_pos hrank] at hk
  exact hk.2

/-- The key of a slot has the slot's number as its rank (R122). -/
theorem RecordsRanking.rankOf_readKey {slot : Nat} (hslot : slot < 128) :
    rankOf s.l4 (readKey s.dedKey slot).toNat = slot := by
  have hi : slot < (dedicatedKeys s.l4).length := by rwa [dedicatedKeys_length]
  obtain ⟨hlt, hrank⟩ := dedicatedKeys_getElem s.l4 hi
  generalize (dedicatedKeys s.l4)[slot] = key at hlt hrank
  have hkey : (BitVec.ofNat 12 key).toNat = key := Nat.mod_eq_of_lt hlt
  have hrec := h (BitVec.ofNat 12 key)
  rw [hkey, hrank, if_pos hslot] at hrec
  rw [hrec.1, hkey, hrank]

/-- A slot holds a key exactly when it is the key's rank. -/
theorem RecordsRanking.readKey_eq_iff {slot : Nat} (hslot : slot < 128) (k : CoarseKey) :
    readKey s.dedKey slot = k ↔ rankOf s.l4 k.toNat = slot := by
  constructor
  · rintro rfl
    exact h.rankOf_readKey hslot
  · intro hrank
    have hk := h k
    rw [hrank, if_pos hslot] at hk
    exact hk.1

/-- The dedicated keys are the 128 of rank below 128 (R122). -/
theorem RecordsRanking.length_selected :
    ((List.range 4096).filter fun k => (readSlot s.slotMap (BitVec.ofNat 12 k)).sel).length = 128 := by
  rw [← dedicatedKeys_length s.l4]
  refine List.Perm.length_eq ((List.perm_ext_iff_of_nodup (List.nodup_range.filter _) (dedicatedKeys_nodup s.l4)).2 ?_)
  intro k
  rw [List.mem_filter, List.mem_range, mem_dedicatedKeys, and_congr_right_iff]
  intro hk
  rw [h.sel_iff, BitVec.toNat_ofNat, Nat.mod_eq_of_lt hk]

/-- No key outside the dedicated ones counts more pixels than one of them (R124). -/
theorem RecordsRanking.countOf_le {d o : CoarseKey} (hd : (readSlot s.slotMap d).sel = true)
    (ho : (readSlot s.slotMap o).sel = false) : countOf s.l4 o.toNat ≤ countOf s.l4 d.toNat := by
  have hd' := (h.sel_iff d).1 hd
  have ho' := mt (h.sel_iff o).2 (Bool.eq_false_iff.1 ho)
  have hbefore := (before_iff_rankOf_lt s.l4 d.isLt o.isLt).2 (by omega)
  simp only [before, Bool.or_eq_true, Bool.and_eq_true, decide_eq_true_iff, beq_iff_eq] at hbefore
  omega

end

/-- After `RANK` from `FILLED` the tables record the ranking of the buckets, which are unchanged (R122). -/
theorem recordsRanking_of_exec_rank {s t : State} (hp : s.phase = .filled) (h : exec .rank s = .next t) :
    RecordsRanking t ∧ t.l4 = s.l4 := by
  refine ⟨exec_rank_recordsRanking hp h, ?_⟩
  obtain rfl := Host.Outcome.next.inj ((exec_rank_of_filled hp).symm.trans h)
  rfl

/-- Settles O21: each clause is a fact about ranks. -/
theorem dedicatedBucketsAreTheMostPopulous : Obligations.DedicatedBucketsAreTheMostPopulous := by
  intro s t hp h
  obtain ⟨hrec, hl4⟩ := recordsRanking_of_exec_rank hp h
  refine ⟨hrec.length_selected, fun slot => ?_, fun a b ha hb hab => ?_, fun d o hd ho => ?_⟩
  · have hrank := hrec.rankOf_readKey slot.isLt
    rw [hrec.slot_eq (hrank.trans_lt slot.isLt), hrank, BitVec.ofNat_toNat, BitVec.setWidth_eq]
  · rw [← hrec.rankOf_readKey ha, hab, hrec.rankOf_readKey hb]
  · exact hl4 ▸ hrec.countOf_le hd ho

/-- When all buckets tie the ranking order is the order of the keys (R121, R123). -/
theorem rankOf_of_all_empty {l4 : Table Bucket} (hzero : ∀ k, k < 4096 → countOf l4 k = 0) {k : Nat} (hk : k < 4096) :
    rankOf l4 k = k := by
  have hsorted : ((List.range 4096).map fun k => (k, countOf l4 k)).Pairwise (pairBefore · ·) := by
    rw [List.pairwise_map]
    refine List.pairwise_lt_range.imp_of_mem fun {a b} ha hb hab => ?_
    rw [pairBefore_iff, hzero a (List.mem_range.1 ha), hzero b (List.mem_range.1 hb)]
    exact .inr ⟨rfl, hab⟩
  have hranking := (ranking_perm l4).eq_of_pairwise
    (fun a b _ _ hab hba => nomatch hab.symm.trans (pairBefore_asymm hba)) (ranking_pairwise l4) hsorted
  obtain ⟨_, hplace⟩ := getElem_rankOf l4 hk
  simp only [hranking, List.getElem_map, List.getElem_range] at hplace
  exact congrArg Prod.fst hplace

/-- Settles O22: the rank of every key is the key itself. -/
theorem emptyBucketsFillSlotsInKeyOrder : Obligations.EmptyBucketsFillSlotsInKeyOrder := by
  intro s t hp hzero h
  obtain ⟨hrec, hl4⟩ := recordsRanking_of_exec_rank hp h
  have hrank : ∀ k : CoarseKey, rankOf t.l4 k.toNat = k.toNat := fun k => by
    rw [hl4, rankOf_of_all_empty hzero k.isLt]
  refine ⟨fun slot hslot => ?_, fun k => ?_⟩
  · rw [hrec.readKey_eq_iff hslot, hrank, BitVec.toNat_ofNat]
    omega
  · have hk := hrec k
    rw [hrank] at hk
    split at hk
    · rename_i hlt
      rw [hk.2, if_pos hlt]
    · rename_i hge
      rw [hk, if_neg hge]

end Sys2Proof.Machine

/-! ### Averages of the pixels of one bucket -/

namespace Sys2Proof.Machine

/-- The pixels whose totals the bucket of a palette slot holds: of a key up to slot 127, of a Level-2 key and no
dedicated bucket from slot 128 on (R24). -/
def slotPixels (s : State) (slot : Nat) : List Pixel :=
  streamPixels s s.npix.toNat fun px =>
    if slot < 128 then k4 px == readKey s.dedKey slot
    else !(readSlot s.slotMap (k4 px)).sel && k2 px == BitVec.ofNat 6 (slot - 128)

theorem not_idle_of_afterRefine {p : Phase} (h : afterRefine p) : p ≠ .idle ∧ p ≠ .fill := by
  rcases h with rfl | rfl | rfl <;> decide

/-- Once pass 1 is complete the stream of the run is all `NPIX` pixels (R13). -/
theorem Inv.pixIdx_eq_npix {s : State} (hinv : Inv Config.limits s) (hp : afterRefine s.phase) : s.pixIdx = s.npix :=
  hinv.pass_complete (not_idle_of_afterRefine hp).1 (not_idle_of_afterRefine hp).2

theorem RunInv.slotBucket_holdsTotals {s : State} (hrun : RunInv s) (hinv : Inv Config.limits s)
    (hp : afterRefine s.phase) {slot : Nat} (hslot : slot < 192) :
    HoldsTotals (slotBucket s slot) (slotPixels s slot) := by
  by_cases hded : slot < 128
  · have hcoarse := hrun.coarse (not_idle_of_afterRefine hp).1 (readKey s.dedKey slot)
    rw [hinv.pixIdx_eq_npix hp] at hcoarse
    simpa only [slotBucket, slotPixels, if_pos hded] using hcoarse
  · have hfine := hrun.fine hp (BitVec.ofNat 6 (slot - 128))
    rw [BitVec.toNat_ofNat, Nat.mod_eq_of_lt (show slot - 128 < 2 ^ 6 by omega)] at hfine
    simpa only [slotBucket, slotPixels, if_neg hded] using hfine

/-- An average is at most the largest addend. -/
theorem average_le {α : Type} {f : α → Nat} {m : Nat} (hf : ∀ x, f x ≤ m) (l : List α) :
    (l.map f).sum / l.length ≤ m := by
  have hsum : (l.map f).sum ≤ l.length * m := by
    simpa using List.sum_le_card_nsmul (l.map f) m (by simpa using fun x _ => hf x)
  exact Nat.div_le_of_le_mul hsum

/-- Settles O25: a rescaled red or blue is even, so at most 62, and green is at most 63. -/
theorem channelAveragesFitSixBits : Obligations.ChannelAveragesFitSixBits := by
  intro s slot hinv hrun hp hslot _
  obtain ⟨hr, hg, hb, hcount⟩ := hrun.slotBucket_holdsTotals hinv hp hslot
  rw [hr, hg, hb, hcount]
  refine ⟨average_le (fun px => ?_) _, average_le (fun px => ?_) _, average_le (fun px => ?_) _⟩
  · rw [r6_toNat]
    omega
  · rw [g6_toNat]
    omega
  · rw [b6_toNat]
    omega

/-- The average of numbers that agree in their upper part has that upper part. -/
theorem average_div {l : List Nat} {d q : Nat} (hd : 0 < d) (hne : l ≠ []) (hl : ∀ x ∈ l, x / d = q) :
    l.sum / l.length / d = q := by
  have hpos : 0 < l.length := List.length_pos_of_ne_nil hne
  have hlow : l.length * (q * d) ≤ l.sum :=
    List.card_nsmul_le_sum l (q * d) fun x hx => hl x hx ▸ Nat.div_mul_le_self x d
  have hhigh : l.sum ≤ l.length * (q * d + (d - 1)) := by
    refine List.sum_le_card_nsmul l _ fun x hx => ?_
    have hdivmod := Nat.div_add_mod' x d
    have hmod := Nat.mod_lt x hd
    rw [hl x hx] at hdivmod
    omega
  refine Nat.div_eq_of_lt_le ?_ ?_
  · rwa [Nat.le_div_iff_mul_le hpos, Nat.mul_comm]
  · rw [Nat.div_lt_iff_lt_mul hpos, Nat.mul_comm]
    refine hhigh.trans_lt (Nat.mul_lt_mul_of_pos_left ?_ hpos)
    rw [Nat.succ_mul]
    omega

/-- The mean of a channel over pixels that agree in its upper part, as the 6 bits of a palette entry (R143). -/
theorem meanChannel_div {c : Pixel → Channel} {ps : List Pixel} {d q : Nat} (hd : 0 < d) (hne : ps ≠ [])
    (hps : ∀ p ∈ ps, (c p).toNat / d = q) :
    (BitVec.ofNat 6 ((ps.map fun p => (c p).toNat).sum / ps.length)).toNat / d = q := by
  have hle : (ps.map fun p => (c p).toNat).sum / ps.length ≤ 63 :=
    average_le (fun p => Nat.le_of_lt_succ (c p).isLt) ps
  have hdiv := average_div hd (mt List.map_eq_nil_iff.1 hne) (l := ps.map fun p => (c p).toNat)
    (by simpa only [List.forall_mem_map] using hps)
  rwa [BitVec.toNat_ofNat, Nat.mod_eq_of_lt (Nat.lt_succ_of_le hle), ← List.length_map (fun p => (c p).toNat)]

/-- Two pixels agree in the upper part of each rescaled channel. -/
def agreeAbove (d : Nat) (p px : Pixel) : Prop :=
  (r6 p).toNat / d = (r6 px).toNat / d ∧ (g6 p).toNat / d = (g6 px).toNat / d ∧ (b6 p).toNat / d = (b6 px).toNat / d

/-- The colour of a bucket whose pixels agree in the upper part of each channel keeps those upper parts (R143). -/
theorem meanColour_div {b : Bucket} {ps : List Pixel} {px : Pixel} {d : Nat} (hb : HoldsTotals b ps) (hd : 0 < d)
    (hmem : px ∈ ps) (hps : ∀ p ∈ ps, agreeAbove d p px) :
    (meanColour b).r.toNat / d = (r6 px).toNat / d ∧ (meanColour b).g.toNat / d = (g6 px).toNat / d ∧
      (meanColour b).b.toNat / d = (b6 px).toNat / d := by
  have hne : ps ≠ [] := List.ne_nil_of_mem hmem
  have hcount : b.count.toNat ≠ 0 := by
    rw [hb.count]
    exact (List.length_pos_of_mem hmem).ne'
  rw [meanColour, if_neg hcount, hb.sumR, hb.sumG, hb.sumB, hb.count]
  exact ⟨meanChannel_div hd hne fun p hp => (hps p hp).1, meanChannel_div hd hne fun p hp => (hps p hp).2.1,
    meanChannel_div hd hne fun p hp => (hps p hp).2.2⟩

/-- The key of a pixel from its rescaled channels (R66, R68). -/
theorem k4_toNat_of_channels (px : Pixel) :
    (k4 px).toNat = (r6 px).toNat / 4 * 256 + (g6 px).toNat / 4 * 16 + (b6 px).toNat / 4 := by
  rw [k4_toNat, r6_toNat, g6_toNat, b6_toNat]
  omega

theorem k2_toNat_of_channels (px : Pixel) :
    (k2 px).toNat = (r6 px).toNat / 16 * 16 + (g6 px).toNat / 16 * 4 + (b6 px).toNat / 16 := by
  rw [k2_toNat, r6_toNat, g6_toNat, b6_toNat]
  omega

theorem mem_streamPixels {s : State} {m : Nat} {p : Pixel → Bool} {px : Pixel} :
    px ∈ streamPixels s m p ↔ (∃ n, n < m ∧ cachedPixel s.pixCache n = px) ∧ p px = true := by
  simp only [streamPixels, List.mem_filter, List.mem_map, List.mem_range]

/-- Pixels of one Level-4 bucket agree in the upper four bits of each channel (R66). -/
theorem agreeAbove_of_k4_eq {p px : Pixel} (h : k4 p = k4 px) : agreeAbove 4 p px := by
  have hkey := congrArg BitVec.toNat h
  rw [k4_toNat_of_channels, k4_toNat_of_channels] at hkey
  unfold agreeAbove
  omega

/-- Pixels of one Level-2 bucket agree in the upper two bits of each channel (R67). -/
theorem agreeAbove_of_k2_eq {p px : Pixel} (h : k2 p = k2 px) : agreeAbove 16 p px := by
  have hkey := congrArg BitVec.toNat h
  rw [k2_toNat_of_channels, k2_toNat_of_channels] at hkey
  unfold agreeAbove
  omega

section
variable {s : State} {px : Pixel}

theorem k4_of_mem_slotPixels {slot : Nat} (hslot : slot < 128) (h : px ∈ slotPixels s slot) :
    k4 px = readKey s.dedKey slot := by
  rw [slotPixels, mem_streamPixels, if_pos hslot, beq_iff_eq] at h
  exact h.2

theorem k2_of_mem_slotPixels {slot : Nat} (hslot : ¬ slot < 128) (h : px ∈ slotPixels s slot) :
    k2 px = BitVec.ofNat 6 (slot - 128) := by
  rw [slotPixels, mem_streamPixels, if_neg hslot, Bool.and_eq_true, beq_iff_eq] at h
  exact h.2.2

/-- A pixel of the run is counted in the bucket of the slot that its index points at (R73, R151). -/
theorem mem_slotPixels_of_index (hrec : RecordsRanking s) {n : Nat} (hn : n < s.npix.toNat)
    (hpx : cachedPixel s.pixCache n = px) : px ∈ slotPixels s ((indexOf s.slotMap px).toNat - 64) := by
  rw [slotPixels, mem_streamPixels, indexOf_toNat]
  refine ⟨⟨n, hn, hpx⟩, ?_⟩
  by_cases hsel : (readSlot s.slotMap (k4 px)).sel = true
  · have hrank := (hrec.sel_iff (k4 px)).1 hsel
    have hslot : (readSlot s.slotMap (k4 px)).slot.toNat = rankOf s.l4 (k4 px).toNat := by
      rw [hrec.slot_eq hrank]
      exact Nat.mod_eq_of_lt hrank
    rw [if_pos hsel, hslot, Nat.add_sub_cancel_left, if_pos hrank, beq_iff_eq]
    exact ((hrec.readKey_eq_iff hrank (k4 px)).2 rfl).symm
  · rw [if_neg hsel, if_neg (by omega), Bool.eq_false_of_not_eq_true hsel, Bool.not_false, Bool.true_and, beq_iff_eq]
    rw [show 192 + (k2 px).toNat - 64 - 128 = (k2 px).toNat by omega, BitVec.ofNat_toNat, BitVec.setWidth_eq]

end

/-- A palette slot whose bucket counts a pixel has a colour with the pixel's key in its upper bits (R143). -/
theorem meanColour_of_mem_slotPixels {s : State} {slot : Nat} {px : Pixel}
    (hb : HoldsTotals (slotBucket s slot) (slotPixels s slot)) (hmem : px ∈ slotPixels s slot) {c : Colour}
    (hc : c = meanColour (slotBucket s slot)) :
    if slot < 128 then c.r.toNat / 4 * 256 + c.g.toNat / 4 * 16 + c.b.toNat / 4 = (k4 px).toNat
    else c.r.toNat / 16 * 16 + c.g.toNat / 16 * 4 + c.b.toNat / 16 = (k2 px).toNat := by
  subst hc
  split
  · rename_i hslot
    obtain ⟨hr, hg, hbl⟩ := meanColour_div hb (by decide) hmem fun p hp =>
      agreeAbove_of_k4_eq ((k4_of_mem_slotPixels hslot hp).trans (k4_of_mem_slotPixels hslot hmem).symm)
    rw [hr, hg, hbl, k4_toNat_of_channels]
  · rename_i hslot
    obtain ⟨hr, hg, hbl⟩ := meanColour_div hb (by decide) hmem fun p hp =>
      agreeAbove_of_k2_eq ((k2_of_mem_slotPixels hslot hp).trans (k2_of_mem_slotPixels hslot hmem).symm)
    rw [hr, hg, hbl, k2_toNat_of_channels]

/-- An index byte from 192 up is shared: 192 and the Level-2 key (R73, R151). -/
theorem indexOf_of_shared {slots : Table SlotEntry} {px : Pixel} (h : ¬ (indexOf slots px).toNat < 192) :
    (indexOf slots px).toNat = 192 + (k2 px).toNat := by
  rw [indexOf_toNat] at h ⊢
  split at h
  · have := (readSlot slots (k4 px)).slot.isLt
    omega
  · rename_i hsel
    rw [if_neg hsel]

/-- Settles O41: the byte is the index of the pixel, the pixel is counted in the bucket of that slot, and all pixels
counted there share the key whose bits are the upper bits of the channels. -/
theorem everyIndexDecodesToItsColourBucket : Obligations.EveryIndexDecodesToItsColourBucket := by
  intro s n px hinv hrun hp hn hpx
  obtain ⟨a, ha, hbyte⟩ := hrun.encoded hp n hn
  rw [← hpx] at hbyte
  have hlow := palOffset_le_indexOf s.slotMap px
  have hhigh := (indexOf s.slotMap px).isLt
  have hslot : (indexOf s.slotMap px).toNat - 64 < 192 := by omega
  have hmem := mem_slotPixels_of_index (hrun.ranked (.inr (.inr (.inr hp)))) hn hpx.symm
  have htotals := hrun.slotBucket_holdsTotals hinv (.inr (.inr hp)) hslot
  have hcount : 1 ≤ (slotBucket s ((indexOf s.slotMap px).toNat - 64)).count.toNat := by
    rw [htotals.count]
    exact List.length_pos_of_mem hmem
  have hcolour := meanColour_of_mem_slotPixels htotals hmem (hrun.averaged (.inr hp) _ hslot)
  refine ⟨a, _, _, ha, congrArg BitVec.toNat hbyte.symm, hlow, Nat.le_of_lt_succ hhigh, hcount, rfl, ?_⟩
  by_cases hv : (indexOf s.slotMap px).toNat < 192
  · rw [if_pos (by omega)] at hcolour
    rwa [if_pos hv]
  · rw [if_neg (by omega)] at hcolour
    rw [if_neg hv]
    exact ⟨hcolour, indexOf_of_shared hv⟩

/-! ### Every pixel counted once -/

theorem countP_eq_sum_indicator {α : Type} (p : α → Bool) (l : List α) :
    l.countP p = (l.map fun x => if p x = true then 1 else 0).sum := by
  simp [List.sum_map_ite, List.countP_eq_length_filter]

/-- Members with a property, counted class by class: each is in exactly one of the classes below `m`. -/
theorem sum_countP_classes {α : Type} {q : α → Bool} {cls : α → Nat} {m : Nat} (hcls : ∀ x, q x = true → cls x < m)
    (l : List α) :
    ((List.range m).map fun i => l.countP fun x => q x && i == cls x).sum = l.countP q := by
  induction l with
  | nil => simp
  | cons x l ih =>
    have hone : ((List.range m).map fun i => if (q x && i == cls x) = true then 1 else 0).sum =
        if q x = true then 1 else 0 := by
      rw [← countP_eq_sum_indicator]
      by_cases hq : q x = true
      · simp only [hq, Bool.true_and, if_true]
        exact List.count_range.trans (if_pos (hcls x hq))
      · simp [hq]
    simp only [List.countP_cons, List.sum_map_add, ih, hone]

/-- All pixels of the run, in stream order. -/
def runPixels (s : State) : List Pixel := (List.range s.npix.toNat).map (cachedPixel s.pixCache)

/-- The pixel's Level-4 bucket is dedicated (R20). -/
def isDedicated (s : State) (px : Pixel) : Bool := (readSlot s.slotMap (k4 px)).sel

theorem length_streamPixels (s : State) (p : Pixel → Bool) :
    (streamPixels s s.npix.toNat p).length = (runPixels s).countP p := List.countP_eq_length_filter.symm

/-- A slot below 128 counts the dedicated pixels whose key has the slot's rank. -/
theorem length_slotPixels_dedicated {s : State} (hrec : RecordsRanking s) {slot : Nat} (hslot : slot < 128) :
    (slotPixels s slot).length =
      (runPixels s).countP fun px => isDedicated s px && slot == rankOf s.l4 (k4 px).toNat := by
  rw [slotPixels, length_streamPixels]
  refine List.countP_congr fun px _ => ?_
  rw [if_pos hslot, Bool.and_eq_true, beq_iff_eq, beq_iff_eq, isDedicated, hrec.sel_iff, eq_comm,
    hrec.readKey_eq_iff hslot]
  omega

/-- A slot from 128 on counts the other pixels, by Level-2 key. -/
theorem length_slotPixels_shared (s : State) {j : Nat} (hj : j < 64) :
    (slotPixels s (128 + j)).length =
      (runPixels s).countP fun px => (!isDedicated s px) && j == (k2 px).toNat := by
  rw [slotPixels, length_streamPixels]
  refine List.countP_congr fun px _ => ?_
  have hkey : k2 px = BitVec.ofNat 6 j ↔ j = (k2 px).toNat := by
    rw [← BitVec.toNat_inj, BitVec.toNat_ofNat, Nat.mod_eq_of_lt hj, eq_comm]
  rw [if_neg (by omega), Nat.add_sub_cancel_left, Bool.and_eq_true, Bool.and_eq_true, beq_iff_eq, beq_iff_eq, hkey,
    isDedicated]

theorem sum_slotPixels_dedicated {s : State} (hrec : RecordsRanking s) :
    ((List.range 128).map fun slot => (slotPixels s slot).length).sum = (runPixels s).countP (isDedicated s) := by
  rw [← sum_countP_classes (q := isDedicated s) (cls := fun px => rankOf s.l4 (k4 px).toNat)
    fun px => (hrec.sel_iff (k4 px)).1]
  exact congrArg List.sum (List.map_congr_left fun slot hslot =>
    length_slotPixels_dedicated hrec (List.mem_range.1 hslot))

theorem sum_slotPixels_shared (s : State) :
    ((List.range 64).map fun j => (slotPixels s (128 + j)).length).sum =
      (runPixels s).countP fun px => !isDedicated s px := by
  rw [← sum_countP_classes (cls := fun px => (k2 px).toNat) fun px _ => (k2 px).isLt]
  exact congrArg List.sum (List.map_congr_left fun j hj => length_slotPixels_shared s (List.mem_range.1 hj))

/-- Settles O40: the slots below 128 count the dedicated pixels, those from 128 on the others, each once. -/
theorem everyPixelIsCountedOnce : Obligations.EveryPixelIsCountedOnce := by
  intro s hinv hrun hp
  have hrec : RecordsRanking s := hrun.ranked (.inr hp)
  have hded : ((List.range 128).map fun slot => countOf s.l4 (readKey s.dedKey slot).toNat) =
      (List.range 128).map fun slot => (slotPixels s slot).length := by
    refine List.map_congr_left fun slot hslot => ?_
    have hlt : slot < 128 := List.mem_range.1 hslot
    have hbucket : slotBucket s slot = readBucket s.l4 (readKey s.dedKey slot).toNat := if_pos hlt
    rw [countOf, ← hbucket, (hrun.slotBucket_holdsTotals hinv hp (by omega)).count]
  have hshared : ((List.range 64).map fun j => (readBucket s.l2 j).count.toNat) =
      (List.range 64).map fun j => (slotPixels s (128 + j)).length := by
    refine List.map_congr_left fun j hj => ?_
    have hlt : j < 64 := List.mem_range.1 hj
    have hbucket : slotBucket s (128 + j) = readBucket s.l2 j := by
      rw [slotBucket, if_neg (by omega), Nat.add_sub_cancel_left]
    rw [← hbucket, (hrun.slotBucket_holdsTotals hinv hp (by omega)).count]
  have hall : (runPixels s).countP (isDedicated s) + (runPixels s).countP (fun px => !isDedicated s px) =
      s.npix.toNat := by
    simpa [runPixels] using (List.length_eq_countP_add_countP (isDedicated s) (l := runPixels s)).symm
  rw [hded, hshared, sum_slotPixels_dedicated hrec, sum_slotPixels_shared, hall]

end Sys2Proof.Machine

/-! ### Two states that a host cannot tell apart -/

namespace Sys2Proof.Machine

/-- A state with other contents of the two RAMs. -/
def withRams (cache : Table Pixel) (photo : Table Byte) (s : State) : State :=
  { s with pixCache := cache, qPhoto := photo }

/-- While a run is in progress a host sees of the RAMs the pixels of the run and the bytes of a valid photo (R25). -/
theorem sameToHost_withRams {s : State} {cache : Table Pixel} {photo : Table Byte}
    (hcache : ∀ n, n < s.pixIdx.toNat → cachedPixel cache n = cachedPixel s.pixCache n)
    (hphoto : s.phase = .done → ∀ i, i < s.npix.toNat → photoByte photo i = photoByte s.qPhoto i) :
    SameToHost s (withRams cache photo s) :=
  { SameToHost.refl s with pixCache := fun _ => hcache, qPhoto := hphoto }

/-- A slot map lists keys only, so equal entries of all keys are equal tables. -/
theorem slotMap_ext {t u : Table SlotEntry} (ht : Memory.wf SlotEntry.zero Config.numL4 t)
    (hu : Memory.wf SlotEntry.zero Config.numL4 u) (h : ∀ k, readSlot t k = readSlot u k) : t = u := by
  refine Memory.wf.ext SlotEntry.zero ht hu fun i => ?_
  rcases Nat.lt_or_ge i Config.numL4 with hi | hi
  · have hk : (BitVec.ofNat 12 i).toNat = i := Nat.mod_eq_of_lt hi
    simpa only [readSlot, hk] using h (BitVec.ofNat 12 i)
  · rw [Memory.wf.readEntry_ge _ ht hi, Memory.wf.readEntry_ge _ hu hi]

/-- While a run is in progress two states that a host cannot tell apart differ in their RAMs alone, and agree on the
cached pixels of the run: canonical tables with equal entries are equal (log entry 5). -/
theorem SameToHost.exists_rams {s t : State} (h : SameToHost s t) (hs : Inv Config.limits s) (ht : Inv Config.limits t)
    (hp : s.phase ≠ .idle) :
    ∃ cache photo, t = withRams cache photo s ∧
      ∀ n, n < s.pixIdx.toNat → cachedPixel cache n = cachedPixel s.pixCache n := by
  refine ⟨t.pixCache, t.qPhoto, ?_, h.pixCache hp⟩
  have hl4 := Memory.wf.ext Bucket.zero ht.memory.l4 hs.memory.l4 (h.l4 hp)
  have hl2 := Memory.wf.ext Bucket.zero ht.memory.l2 hs.memory.l2 (h.l2 hp)
  have hded := Memory.wf.ext 0 ht.memory.dedKey hs.memory.dedKey (h.dedKey hp)
  have hslot := slotMap_ext ht.memory.slotMap hs.memory.slotMap (h.slotMap hp)
  have hpal := Memory.wf.ext Colour.zero ht.memory.palette hs.memory.palette (h.palette hp)
  simp only [withRams, ← h.phase, ← h.err, ← h.width, ← h.height, ← h.runW, ← h.runH, ← h.npix, ← h.pixIdx,
    ← h.hostIn, ← h.rdata, ← hl4, ← hl2, ← hded, ← hslot, ← hpal]

/-- Two loops whose bodies agree below the count give the same result (R9). -/
theorem forEachE_congr {σ : Type} {body body' : Nat → σ → Except Fault σ} (x : σ) :
    ∀ n, (∀ k, k < n → ∀ y, body' k y = body k y) → forEachE n body' x = forEachE n body x
  | 0, _ => rfl
  | n + 1, h => by
    simp only [forEachE, forEachE_congr x n fun k hk => h k (by omega), h n (by omega)]

/-- Pass 2 reads the cache below the number of pixels it walks over, and no further (R131). -/
theorem refineWalk_withRams {lim : Config.Limits} {s : State} {cache : Table Pixel} (photo : Table Byte) {count : Nat}
    (h : ∀ n, n < count → cachedPixel cache n = cachedPixel s.pixCache n) :
    refineWalk lim (withRams cache photo s) count = refineWalk lim s count := by
  refine forEachE_congr s.l2 count fun n hn l2 => ?_
  simp only [cacheRead, withRams, h n hn]

/-- Every byte of a photo that `ENCODE` leaves is the index byte of the pixel whose place it stands in (R47, R152). -/
theorem photoByte_of_encodeWalk {s : State} (hinv : Inv Config.limits s) (hp : s.phase = .built) {photo : Table Byte}
    (h : encodeWalk Config.limits s s.npix.toNat = .ok photo) {i : Nat} (hi : i < s.npix.toNat) :
    photoByte photo i = indexOf s.slotMap (cachedPixel s.pixCache (photoPlace s.runW.toNat s.runH.toNat i)) := by
  have hbyte := encodeWalk_bytes hinv hp h (hinv.photoPlace_oneToOne.1 i hi).2
  rwa [photoPlace_photoPlace (hi.trans_eq hinv.npix_eq)] at hbyte

section
variable {s t : State} (h : SameToHost s t)
include h

theorem SameToHost.abort : SameToHost { s with phase := .idle } { t with phase := .idle } :=
  { h with
    phase := rfl
    l4 := fun hp => absurd rfl hp
    l2 := fun hp => absurd rfl hp
    dedKey := fun hp => absurd rfl hp
    slotMap := fun hp => absurd rfl hp
    palette := fun hp => absurd rfl hp
    pixCache := fun hp => absurd rfl hp
    qPhoto := nofun }

theorem SameToHost.beginRun : SameToHost (beginRun s) (beginRun t) :=
  { h with
    phase := by rw [beginRun_phase, beginRun_phase, h.width, h.height]
    runW := h.width
    runH := h.height
    npix := by rw [beginRun_npix, beginRun_npix, h.width, h.height]
    pixIdx := rfl
    l4 := fun _ _ => rfl
    l2 := fun _ _ => rfl
    dedKey := fun _ _ => rfl
    slotMap := fun _ _ => rfl
    palette := fun _ _ => rfl
    pixCache := fun _ n hn => absurd hn (Nat.not_lt_zero n)
    qPhoto := fun hp => by obtain hp' | hp' := beginRun_phase_cases s <;> exact nomatch hp'.symm.trans hp }

theorem SameToHost.raiseFor (read : Bool) (f : ErrFlag) : SameToHost (raiseFor read f s) (raiseFor read f t) := by
  have herr : setFlag f t.err = setFlag f s.err := congrArg (setFlag f) h.err
  cases read with
  | true => exact { h with err := herr, rdata := rfl }
  | false => exact { h with err := herr }

theorem causes_congr {i : Instr} {f : ErrFlag} (hc : causes s i f) : causes t i f := by
  cases f with
  | size => simpa only [causes, h.phase, h.width, h.height] using hc
  | seq => simpa only [causes, h.phase] using hc
  | illCmd => exact hc
  | addr => exact hc

end

/-- The pixel taken is cached on both sides, so the cached pixels of the run still agree (R112). -/
theorem cachedPixel_push_congr {s : State} {cache : Table Pixel} (px : Pixel) (hdue : s.pixIdx.toNat < s.npix.toNat)
    (hcache : ∀ n, n < s.pixIdx.toNat → cachedPixel cache n = cachedPixel s.pixCache n) {n : Nat}
    (hn : n < (s.pixIdx + 1).toNat) :
    cachedPixel (writeEntry 0 cache s.pixIdx.toNat px) n =
      cachedPixel (writeEntry 0 s.pixCache s.pixIdx.toNat px) n := by
  rw [toNat_pixIdx_succ hdue] at hn
  rw [cachedPixel_write, cachedPixel_write]
  split
  · rfl
  · exact hcache n (by omega)

/-- Pass 3 writes the same bytes over whatever each photo held: the whole photo of the run (R152). -/
theorem exists_encode_withRams {s : State} {cache : Table Pixel} {photo bytes : Table Byte}
    (hinv : Inv Config.limits s) (hinv' : Inv Config.limits (withRams cache photo s))
    (hcache : ∀ n, n < s.pixIdx.toNat → cachedPixel cache n = cachedPixel s.pixCache n) (hp : s.phase = .built)
    (hwalk : encodeWalk Config.limits s s.npix.toNat = .ok bytes) :
    ∃ t', Advance (withRams cache photo s) .encode t' ∧ SameToHost { s with qPhoto := bytes, phase := .done } t' := by
  have hall : s.pixIdx = s.npix := hinv.pass_complete (by simp [hp]) (by simp [hp])
  obtain ⟨bytes', hexec, -⟩ := exec_encode_of_built hinv' hp
  obtain ⟨-, _, hwalk', -⟩ | ⟨hne, -⟩ := execEncode_next hexec
  · refine ⟨_, .encode hp hwalk', sameToHost_withRams hcache ?_⟩
    intro _ i hi
    have hplace := (hinv.photoPlace_oneToOne.1 i hi).2
    rw [photoByte_of_encodeWalk hinv hp hwalk hi, photoByte_of_encodeWalk hinv' hp hwalk' hi]
    exact congrArg (indexOf s.slotMap) (hcache _ (hall ▸ hplace))
  · exact absurd hp hne

/-- An instruction that moves the run on does so from every state a host cannot tell apart, to such states. -/
theorem SameToHost.advance {s t s' : State} {i : Instr} (h : SameToHost s t) (hs : Inv Config.limits s)
    (ht : Inv Config.limits t) (hadv : Advance s i s') : ∃ t', Advance t i t' ∧ SameToHost s' t' := by
  have active := h.exists_rams hs ht
  cases hadv with
  | abort => exact ⟨_, .abort, h.abort⟩
  | start hp hw hh => exact ⟨_, .start (h.phase ▸ hp) (h.width ▸ hw) (h.height ▸ hh), h.beginRun⟩
  | push px hp hi =>
    obtain ⟨cache, photo, rfl, hcache⟩ := active (by simp [hp])
    refine ⟨_, .push px hp hi, sameToHost_withRams (photo := photo)
      (fun n => cachedPixel_push_congr px (hs.pixel_due hp) hcache) fun hdone => ?_⟩
    obtain hp' | hp' := phaseAfterPush_cases hp <;> exact nomatch hp'.symm.trans hdone
  | rank hp =>
    obtain ⟨cache, photo, rfl, hcache⟩ := active (by simp [hp])
    exact ⟨_, .rank hp, sameToHost_withRams (photo := photo) hcache nofun⟩
  | @refine l2 hp hwalk =>
    obtain ⟨cache, photo, rfl, hcache⟩ := active (by simp [hp])
    have hall : s.pixIdx = s.npix := hs.pass_complete (by simp [hp]) (by simp [hp])
    have hwalk' := (refineWalk_withRams (lim := Config.limits) photo (hall ▸ hcache)).trans hwalk
    exact ⟨_, .refine hp hwalk', sameToHost_withRams (photo := photo) hcache nofun⟩
  | build hp =>
    obtain ⟨cache, photo, rfl, hcache⟩ := active (by simp [hp])
    exact ⟨_, .build hp, sameToHost_withRams (photo := photo) hcache nofun⟩
  | encode hp hwalk =>
    obtain ⟨cache, photo, rfl, hcache⟩ := active (by simp [hp])
    exact exists_encode_withRams hs ht hcache hp hwalk

/-- An instruction has the same effect for the host from every state a host cannot tell apart. -/
theorem SameToHost.effect {s t s' : State} {i : Instr} (h : SameToHost s t) (hs : Inv Config.limits s)
    (ht : Inv Config.limits t) (heff : Effect s i s') : ∃ t', Effect t i t' ∧ SameToHost s' t' := by
  cases heff with
  | advance hadv =>
    obtain ⟨t', hadv', hsame⟩ := h.advance hs ht hadv
    exact ⟨t', .advance hadv', hsame⟩
  | nop => exact ⟨t, .nop, h⟩
  | setw v => exact ⟨_, .setw v, { h with width := rfl }⟩
  | seth v => exact ⟨_, .seth v, { h with height := rfl }⟩
  | clrerr m => exact ⟨_, .clrerr m, { h with err := congrArg (clearFlags m) h.err }⟩
  | @answer _ v hread hwf hexec =>
    exact ⟨respond v t, .answer hread hwf (exec_read_congr h.sameToReads (fun _ => h.err) hread hwf hexec),
      { h with rdata := rfl }⟩
  | error hcause => exact ⟨_, .error (causes_congr h hcause), h.raiseFor _ _⟩

/-- Taking the host's oldest input keeps two states the same to the host. -/
theorem SameToHost.admitted {s t : State} (h : SameToHost s t) (rest : List HostInput) :
    SameToHost (admitted s rest) (admitted t rest) := { h with hostIn := rfl, rdata := rfl }

/-- Settles O42: no input reads what the phase hides, and each that ends the hiding has overwritten it: `START` clears
the tables, a pass walks over cached pixels only, and `ENCODE` writes the whole photo. -/
theorem unspecifiedContentsAreNeverObserved : Obligations.UnspecifiedContentsAreNeverObserved := by
  intro s t s' hs ht h hstep
  obtain ⟨hin, rfl⟩ | ⟨rest, hin, rfl⟩ | ⟨w, rest, i, hin, hdec, hexec⟩ | ⟨w, rest, r, hin, hdec, rfl⟩ :=
    step_next hstep
  · exact ⟨t, step_hostIn_nil (h.hostIn.trans hin), h⟩
  · exact ⟨_, step_hostIn_reset (h.hostIn.trans hin), SameToHost.refl _⟩
  · obtain ⟨t', heff, hsame⟩ := (h.admitted rest).effect (hs.admitted rest) (ht.admitted rest) (effect_of_exec hexec)
    exact ⟨t', (step_of_ok (h.hostIn.trans hin) hdec).trans (exec_next_iff.2 heff), hsame⟩
  · obtain ⟨f, hf⟩ := rejectTransaction_of_decode hdec
    refine ⟨_, step_of_error (h.hostIn.trans hin) hdec, ?_⟩
    rw [hf, hf]
    exact (h.admitted rest).raiseFor _ f

end Sys2Proof.Machine
